-- ==== Sys2Proof/Word.lean ====
section
/-! DEFINITION. The word types of the Fang cipher core. Every value of the core is unsigned and wraps at its
width (`00_scope.md` rules R11, R12), so a value the spec adds, shifts or masks is a bit vector. -/

namespace Sys2Proof

/-- A byte: 8 bits, the unit of the three byte stores (rule R50). -/
abbrev Byte := BitVec 8

/-- A 32-bit word: the command word, `LEN`, `BLK`, a word of the `KEY32` view. -/
abbrev Word := BitVec 32

/-- A 64-bit word: the seed, a word of the `KEY64` view, a block seen as one number. -/
abbrev DWord := BitVec 64

/-- A block: "exactly 8 bytes" (rule R9, `BLOCKBYTES`). -/
abbrev Block := Vector Byte 8

/-- The seed-material register: 16 bytes (rule R9, `HDRBYTES`). -/
abbrev Hdr := Vector Byte 16

/-- The expanded key: 256 bytes (rule R9, `KEYBYTES`). -/
abbrev Key := Vector Byte 256

end Sys2Proof
end

