-- ==== Sys2Proof/Machine/Bits.lean ====
section
/-! DEFINITION. Bit fields, rotations and byte order: the notation of `00_scope.md` rule R12 and the views of
`20_memory.md` rule R51. Every view is little-endian (decision D2): the byte at the lowest index is the least
significant. -/

namespace Sys2Proof.Machine

/-- Byte `k` of a value, `v[8k+7:8k]` (rule R11). -/
def byteAt {w : Nat} (v : BitVec w) (k : Nat) : Byte := v.extractLsb' (8 * k) 8

/-- `low32(v)` (rule R12). -/
def low32 (v : DWord) : Word := v.extractLsb' 0 32

/-- `high32(v)`, `v[63:32]` (rule R12). -/
def high32 (v : DWord) : Word := v.extractLsb' 32 32

/-- `zext_64` of a 32-bit value (rule R12). -/
def zext64 (v : Word) : DWord := v.setWidth 64

/-- `rotl32(x, k)` for 0 < k < 32 (rule R12). -/
def rotl32 (x : Word) (k : Nat) : Word := (x <<< k) ||| (x >>> (32 - k))

/-- `rotr32(x, k)` for 0 < k < 32 (rule R12). -/
def rotr32 (x : Word) (k : Nat) : Word := (x >>> k) ||| (x <<< (32 - k))

/-- `bswap32(x)`: the bytes of `x` in reverse order (rule R12). -/
def bswap32 (x : Word) : Word := byteAt x 0 ++ byteAt x 1 ++ byteAt x 2 ++ byteAt x 3

/-- The 32-bit value of four bytes, lowest index first (rule R51). -/
def join32 (b0 b1 b2 b3 : Byte) : Word := b3 ++ b2 ++ b1 ++ b0

/-- The 64-bit value of its low and high 32 bits (rule R51: `KEY64[j] = KEY32[2j] + KEY32[2j+1]·2^32`). -/
def join64 (lo hi : Word) : DWord := hi ++ lo

/-- The 32-bit view of a byte store: word `i` is the bytes `4i` to `4i+3` (rule R51). -/
def word32 {n : Nat} (k : Vector Byte n) (i : Nat) (h : 4 * i + 4 ≤ n := by omega) : Word :=
  join32 k[4 * i] k[4 * i + 1] k[4 * i + 2] k[4 * i + 3]

/-- The 64-bit view of a byte store: word `j` is the bytes `8j` to `8j+7` (rule R51). -/
def word64 {n : Nat} (k : Vector Byte n) (j : Nat) (h : 8 * j + 8 ≤ n := by omega) : DWord :=
  join64 (word32 k (2 * j)) (word32 k (2 * j + 1))

/-- A write through the 32-bit view, `KEY32[i] <- v`: byte `4i+k` becomes `v[8k+7:8k]` (rule R51). There is
one backing store, so the write is seen at once by every view (rule R52). -/
def setWord32 {n : Nat} (k : Vector Byte n) (i : Nat) (v : Word) (h : 4 * i + 4 ≤ n := by omega) : Vector Byte n :=
  (((k.set (4 * i) (byteAt v 0)).set (4 * i + 1) (byteAt v 1)).set (4 * i + 2) (byteAt v 2)).set (4 * i + 3) (byteAt v 3)

/-- `KEY32[i]` (rule R51). -/
def key32 (k : Key) (i : Fin 64) : Word := word32 k i.val

/-- `KEY64[j]` (rule R51). -/
def key64 (k : Key) (j : Fin 32) : DWord := word64 k j.val

/-- `le64(b)` of a block (rule R51). -/
def le64 (b : Block) : DWord := word64 b 0

/-- `lo32(b)`: "`lo` = first 4 bytes" (rule R51). -/
def lo32 (b : Block) : Word := word32 b 0

/-- `hi32(b)`: "`hi` = last 4 bytes" (rule R51). -/
def hi32 (b : Block) : Word := word32 b 1

/-- `bytes64(v)`: the block `b` with `le64(b) = v` (rule R51). -/
def bytes64 (v : DWord) : Block :=
  #v[byteAt v 0, byteAt v 1, byteAt v 2, byteAt v 3, byteAt v 4, byteAt v 5, byteAt v 6, byteAt v 7]

/-- The four bytes of a 32-bit value, lowest address first (rules R36, R53). -/
def wordBytes (v : Word) : List Byte := [byteAt v 0, byteAt v 1, byteAt v 2, byteAt v 3]

/-- The 32-bit value of four bytes, lowest address first; no other number of bytes has one (rules R36, R53). -/
def wordOfBytes : List Byte → Option Word
  | [b0, b1, b2, b3] => some (join32 b0 b1 b2 b3)
  | _ => none

end Sys2Proof.Machine
end

