-- ==== Sys2Proof/Syntax.lean ====
section
/-! DEFINITION. The command set: one constructor per row of `spec/opcode_table.json`. A command word carries no
operand (`30_encoding.md` rules R71, R73), so no constructor has an argument. -/

namespace Sys2Proof

/-- The seven commands of `30_encoding.md` rule R72, in the table's order. -/
inductive Instr where
  /-- `NOP`, word 0: no operation (rule R150). -/
  | nop
  /-- `SEEDX`, word 1: seed extract, container form (rule R91). -/
  | seedx
  /-- `SEEDLD`, word 2: seed load, script form (rule R93). -/
  | seedld
  /-- `KEXP`, word 3: key expand (rule R112). -/
  | kexp
  /-- `ENC`, word 4: encrypt the payload (rule R137). -/
  | enc
  /-- `DEC`, word 5: decrypt the payload (rule R136). -/
  | dec
  /-- `CLR`, word 6: clear, discard seed and key, acknowledge a fault (rule R151). -/
  | clr
  deriving DecidableEq, Repr

end Sys2Proof
end

