-- ==== Sys2Proof/WellFormed.lean ====
section
/-! DEFINITION. What well-formed means for a command and for a command word. A command carries no operand
(`30_encoding.md` rule R71), so every term of `Instr` is well formed; the checks that can fail are those of the
32-bit command word: its `RSV` field and its opcode (rules R70, R72, R74). -/

namespace Sys2Proof

/-- A command is well formed: always, since every operand is implicit (rules R71, R73). -/
def Instr.wellFormed : Instr → Bool
  | .nop => true
  | .seedx => true
  | .seedld => true
  | .kexp => true
  | .enc => true
  | .dec => true
  | .clr => true

/-- Rule R70: "`RSV` must be 0", bits 31:8 of the command word. -/
def rsvClear (w : Word) : Bool := w.extractLsb' 8 24 == 0

/-- Rule R72: the opcode, bits 7:0, is one of 0x00 to 0x06. -/
def opcInTable (w : Word) : Bool := (w.extractLsb' 0 8).toNat ≤ 6

/-- A command word is well formed when its `RSV` field is 0 and its opcode is one of the table's (rules R70, R72). -/
def wordWellFormed (w : Word) : Bool := rsvClear w && opcInTable w

end Sys2Proof
end

