-- ==== Sys2Proof/Decode.lean ====
section
/-! DEFINITION. The decoder of command words, total on any bytes, rejecting by name; then the encoder, written from
the same table (`30_encoding.md` rules R70 to R76). -/

namespace Sys2Proof

/-- Why bytes are no command: raised by `decodeBytes`. Safe: the two of a 32-bit word are the spec's own
"illegal" (rule R74), which the step turns into the ILLCMD fault. -/
inductive DecodeReject where
  /-- `RSV`, bits 31:8, is not 0 (rule R74, decision D30). -/
  | reservedBits
  /-- `RSV` is 0 and the opcode is in 0x07 to 0xFF (rule R74). -/
  | unknownOpcode
  /-- Not exactly four bytes: every command is 32 bits long (rule R71). -/
  | notFourBytes
  deriving DecidableEq, Repr

/-- One row of the opcode map: "a word `w` selects the row with `w AND mask = match`" (rule R72). -/
structure OpcodeRow where
  mask : Word
  pattern : Word
  command : Instr
  deriving DecidableEq, Repr

/-- The opcode map of rule R72. "All masks are 0xFFFFFFFF: a command word is one exact value." -/
def opcodeMap : List OpcodeRow :=
  [⟨0xFFFFFFFF, 0x00000000, .nop⟩,
   ⟨0xFFFFFFFF, 0x00000001, .seedx⟩,
   ⟨0xFFFFFFFF, 0x00000002, .seedld⟩,
   ⟨0xFFFFFFFF, 0x00000003, .kexp⟩,
   ⟨0xFFFFFFFF, 0x00000004, .enc⟩,
   ⟨0xFFFFFFFF, 0x00000005, .dec⟩,
   ⟨0xFFFFFFFF, 0x00000006, .clr⟩]

/-- `decode(w)` of rule R75: the command of the row the word selects, or why it is illegal. -/
def decode (w : Word) : Except DecodeReject Instr :=
  match opcodeMap.find? (fun r => w &&& r.mask == r.pattern) with
  | some r => .ok r.command
  | none => .error (if rsvClear w then .unknownOpcode else .reservedBits)

/-- The decoder on the bytes of one bus write, lowest address first (rules R36, R53, R71). -/
def decodeBytes (bs : List Byte) : Except DecodeReject Instr :=
  match Machine.wordOfBytes bs with
  | some w => decode w
  | none => .error .notFourBytes

/-- The command word of a command (rule R72). -/
def encode : Instr → Word
  | .nop => 0x00000000
  | .seedx => 0x00000001
  | .seedld => 0x00000002
  | .kexp => 0x00000003
  | .enc => 0x00000004
  | .dec => 0x00000005
  | .clr => 0x00000006

/-- The bytes of the bus write that issues a command (rule R77: "the 'encoding' of a line is the bus write it
stands for"). -/
def encodeBytes (i : Instr) : List Byte := Machine.wordBytes (encode i)

/-- The 32-bit word of a table row whose low `nbits` bits are those of `w` and whose other bits are 0. -/
def tableWord (nbits w : Nat) : Word := BitVec.ofNat 32 (w % 2 ^ nbits)

/-- What the decoder reads from an instruction whose bits are `w`, numbered as `spec/opcode_table.json` numbers
them; none where it refuses. -/
def decodeTableWord (nbits w : Nat) : Option Instr :=
  match decodeBytes (Machine.wordBytes (tableWord nbits w)) with
  | .ok i => some i
  | .error _ => none

end Sys2Proof
end

