-- ==== Sys2Proof/Config.lean ====
section
/-! DEFINITION. What an implementation fixes and what the spec leaves open: constants with no body, so that nothing
in Lean can evaluate one or prove a value of it (`93_implementation_defined.md`: "None is ever to be given a
convenient fixed value such as zero"). A statement about the machine holds for every value of each. -/

namespace Sys2Proof.Config

/-- The index of the last block of the buffer memory of the machine `State.reset` describes. `BUFCAP` is
8 times one more than it, so it ranges over exactly the capacities of rule R10: the multiples of 8 from 8 to
2^32 - 8 (`93_implementation_defined.md` U13, decision D5; log 1). -/
opaque bufCapLastBlock : Fin 536870911

/-- `HDR` byte `i` after the `n`-th reset: unspecified, "an unknown fixed at reset" (rule R40, U2; log 2). -/
opaque resetHdr (n i : Nat) : Byte

/-- `SEED` after the `n`-th reset: unspecified (rules R40, R210; log 2). -/
opaque resetSeed (n : Nat) : DWord

/-- `KEY` byte `i` after the `n`-th reset: unspecified (rules R40, R210; log 2). -/
opaque resetKey (n i : Nat) : Byte

/-- `BUF` byte `a` after the `n`-th reset, until something writes it: unspecified (rule R40, U3, U16; log 3). -/
opaque resetBuf (n a : Nat) : Byte

/-- The bits of `SEED` after the discard drawn as number `d`: no longer defined (rules R28, R41, U4; log 4). -/
opaque freeSeed (d : Nat) : DWord

/-- Byte `i` of `KEY` after the discard drawn as number `d`: no longer defined (rules R28, R41, U4; log 4). -/
opaque freeKey (d i : Nat) : Byte

/-- Byte `i` of a host read that returns an unspecified value, drawn as number `d`: "drawn afresh at each
read" (rules R34, R37, U1, U6; log 5). -/
opaque freeRead (d i : Nat) : Byte

/-- The 16-byte integrity digest of the container's encrypt path, "an uninterpreted total function from byte
strings to 16 bytes" (U11, rule R170; log 13). Host side: no step of the core uses it. -/
opaque digest (body : List Byte) : Vector Byte 16

end Sys2Proof.Config
end

