-- ==== Sys2Proof/Machine/State.lean ====
section
/-! DEFINITION. The state of one core (`10_state.md` rule R20), as plain data, with the inputs the outside world
will make and the answers it has had; the state after reset; the reasons a step can stop. -/

namespace Sys2Proof.Machine

/-- The four faults of a command (`60_exceptions.md` rule R180), "exactly the four constructors" so that a
reserved code cannot be written down (`93_implementation_defined.md` U7). They are recorded in the error register
and are no stop of the machine (rule R186). -/
inductive CmdFault where
  /-- Code 1: ENC or DEC with `LEN` not a multiple of 8 or above `BUFCAP` (rule R182). -/
  | malformed
  /-- Code 2: the word written to `CMD` is not one of the seven (rule R183). -/
  | illcmd
  /-- Code 3: KEXP with `SEEDV` = 0 (rule R184). -/
  | noseed
  /-- Code 4: ENC or DEC with `KEYV` = 0 (rule R184). -/
  | nokey
  deriving DecidableEq, Repr

/-- Why the window refuses a host access (`10_state.md` rule R37, U6). A refused access changes no state of the
core; the name marks the run (log 6). -/
inductive AccessRefusal where
  /-- The offset lies in no register and no window (rules R33, R37). -/
  | reservedOffset
  /-- The number of bytes is one rule R36 does not allow there. -/
  | badSize
  /-- The offset is not the register's own, or not a multiple of the size (rule R36). -/
  | misaligned
  /-- The access runs past the end of its window (rules R36, R37). -/
  | crossesWindow
  /-- A write to `STATUS`, `BLK`, `SEED_LO`, `SEED_HI` or the `KEY` window (rule R37). -/
  | readOnly
  deriving DecidableEq, Repr

/-- What the outside world can do to the core, one access at a time (`00_scope.md` rules R15, R16; for reset
`70_reset_and_hazards.md` rule R210). Offsets are from the window's base (rule R62). -/
inductive Input where
  /-- The host writes the bytes, lowest address first, at the offset. A write to `CMD` is a command. -/
  | write (off : Nat) (bytes : List Byte)
  /-- The host reads `size` bytes at the offset. -/
  | read (off : Nat) (size : Nat)
  /-- The platform applies reset (rule R210; log 9). -/
  | reset
  deriving DecidableEq, Repr

/-- What the bus answers to one host access (rules R33 to R37, R187; log 8). -/
inductive Reply where
  /-- The write completed; so does a write to `CMD` whose command faults (rule R187). -/
  | written
  /-- The read's bytes, lowest address first. -/
  | data (bytes : List Byte)
  /-- The write was refused and changed nothing (rule R37). -/
  | refusedWrite (why : AccessRefusal)
  /-- The read was refused; its bytes are unspecified (rule R37). -/
  | refusedRead (why : AccessRefusal) (bytes : List Byte)
  deriving DecidableEq, Repr

/-- The buffer memory's capacity `BUFCAP`, as the index of its last block: every value is a capacity rule R10
allows, and each of those is one (log 1). -/
structure BufCap where
  lastBlock : Fin 536870911
  deriving DecidableEq, Repr

/-- `BUFCAP` in bytes (rule R10). -/
def BufCap.bytes (c : BufCap) : Nat := 8 * (c.lastBlock.val + 1)

/-- The state. The first ten fields are the tuple of rule R20; `bufcap` is the parameter of rule R10; the last
four are the model's own: the outside world's inputs and the answers, and what numbers the free values. -/
structure State where
  /-- `HDR`, the seed-material register (rule R21). -/
  hdr : Hdr
  /-- `SEED` (rule R22). -/
  seed : DWord
  /-- `SEEDV`, seed valid (rule R23). -/
  seedv : Bool
  /-- `KEY`, the expanded key (rule R24). -/
  key : Key
  /-- `KEYV`, key valid (rule R25). -/
  keyv : Bool
  /-- `LEN`, the payload length in bytes (rule R27). -/
  len : Word
  /-- `BLK`, the block index (rule R26). -/
  blk : Word
  /-- `BUF`, the payload buffer (rule R29): the bytes written since reset, addresses rising; an address that is
  not listed has no written byte and reads as `Config.resetBuf` says (log 3). -/
  buf : List Host.Cell
  /-- `ERR`, the sticky error flag (rule R30). -/
  err : Bool
  /-- `ERRCODE` (rules R30, R180): none is code 0 (log 14). -/
  errcode : Option CmdFault
  /-- `BUFCAP` (rule R10): a parameter of the machine, which no step changes (log 1). -/
  bufcap : BufCap
  /-- The inputs still to come, oldest first (rule R63; log 7). -/
  pending : List Input
  /-- The answers so far, newest first (log 8). -/
  replies : List Reply
  /-- Which reset the unspecified bytes of `BUF` date from (log 3). -/
  resets : Nat
  /-- The number of the next free value (logs 4, 5). -/
  draws : Nat
  deriving DecidableEq, Repr

/-- The core right after reset (rules R40, R210), with nothing pending and nothing answered: flags, `LEN`, `BLK`
and the error register 0; `HDR`, `SEED`, `KEY` and `BUF` unspecified (logs 2, 3). -/
def State.reset : State where
  hdr := Vector.ofFn fun i => Config.resetHdr 0 i
  seed := Config.resetSeed 0
  seedv := false
  key := Vector.ofFn fun i => Config.resetKey 0 i
  keyv := false
  len := 0
  blk := 0
  buf := []
  err := false
  errcode := none
  bufcap := ⟨Config.bufCapLastBlock⟩
  pending := []
  replies := []
  resets := 0
  draws := 0

/-- The faults that stop the machine: none. The four faults of the spec are recorded in the error register and the
machine goes on (rules R186, R189; log 12). -/
inductive Fault where
  deriving DecidableEq, Repr

/-- Why a step has no meaning. -/
inductive Refusal where
  /-- Raised by an arm of `exec` for a command that has no meaning yet; no arm does. Safe. -/
  | notModelled (mnemonic : String)
  deriving DecidableEq, Repr

end Sys2Proof.Machine
end

