-- ==== Sys2Proof/Machine/Ops.lean ====
section
/-! DEFINITION. The named operations over the buffer memory and the registers: reading and writing a byte, raising a
fault (`60_exceptions.md` rule R186) and clearing it (rule R188), the discard of seed and key (`10_state.md` rule
R28), reset (`70_reset_and_hazards.md` rule R210), and the bus's answers. -/

namespace Sys2Proof.Machine

/-! ### Memory: a list of address and byte, addresses strictly rising -/

/-- The byte written at an address, none where nothing has been written. -/
def Memory.find (m : List Host.Cell) (a : Nat) : Option Byte :=
  match m with
  | [] => none
  | (b, v) :: rest => if b = a then some v else Memory.find rest a

/-- Write one byte, keeping the addresses strictly rising. -/
def Memory.write (m : List Host.Cell) (a : Nat) (v : Byte) : List Host.Cell :=
  match m with
  | [] => [(a, v)]
  | (b, w) :: rest =>
    if a < b then (a, v) :: (b, w) :: rest
    else if a = b then (a, v) :: rest
    else (b, w) :: Memory.write rest a v

/-- Every address of the list is above `lo`, and they rise strictly. -/
def Memory.risesAbove (lo : Nat) : List Host.Cell → Bool
  | [] => true
  | (a, _) :: rest => decide (lo < a) && Memory.risesAbove a rest

/-- The canonical form: addresses strictly rising. No entry can equal what an unlisted address holds, since an
unlisted address holds no written byte at all (log 3). -/
def Memory.wf : List Host.Cell → Bool
  | [] => true
  | (a, _) :: rest => Memory.risesAbove a rest

/-- Every listed address is below `cap`. -/
def Memory.below (cap : Nat) (m : List Host.Cell) : Bool := m.all fun c => decide (c.1 < cap)

/-- `BUF[a]`: the byte written last, or the unknown byte that stands there since reset (rules R29, R40, U3). -/
def State.bufByte (s : State) (a : Nat) : Byte := (Memory.find s.buf a).getD (Config.resetBuf s.resets a)

/-- `BUF[a] <- v` (rule R13). -/
def State.setBufByte (s : State) (a : Nat) (v : Byte) : State := { s with buf := Memory.write s.buf a v }

/-- Bytes written from an address up, lowest address first. -/
def State.setBufBytes (s : State) (a : Nat) : List Byte → State
  | [] => s
  | v :: rest => State.setBufBytes (s.setBufByte a v) (a + 1) rest

/-- `HDR[i] <- v`; an index of 16 or more is no byte of `HDR` and writes nothing. -/
def State.setHdrByte (s : State) (i : Nat) (v : Byte) : State := { s with hdr := s.hdr.setIfInBounds i v }

/-- `HDR` bytes written from an index up, lowest index first. -/
def State.setHdrBytes (s : State) (i : Nat) : List Byte → State
  | [] => s
  | v :: rest => State.setHdrBytes (s.setHdrByte i v) (i + 1) rest

/-! ### Faults -/

/-- `code(F)` of rule R180; 0 where no fault is recorded. -/
def faultCode : Option CmdFault → BitVec 4
  | none => 0
  | some .malformed => 1
  | some .illcmd => 2
  | some .noseed => 3
  | some .nokey => 4

/-- Fault entry, `raise F` (rule R186): "`ERR` <- 1 ; `ERRCODE` <- code(F)", and nothing else. There is no handler,
no vector and no saved state; the machine goes on. -/
def raise (f : CmdFault) (s : State) : State := { s with err := true, errcode := some f }

/-- Acknowledging a fault (rule R188): `ERR` and `ERRCODE` cleared. There is nothing to restore. -/
def ackFault (s : State) : State := { s with err := false, errcode := none }

/-- The discard rule (rule R28): both validity flags cleared; the bits of `SEED` and `KEY` are no longer defined
(rules R22, R24, R41), so each is a free value (log 4). -/
def discard (s : State) : State :=
  { s with
    seed := Config.freeSeed s.draws
    seedv := false
    key := Vector.ofFn fun i => Config.freeKey s.draws i
    keyv := false
    draws := s.draws + 1 }

/-- `BLK <- v` (rule R26). -/
def setBlk (v : Word) (s : State) : State := { s with blk := v }

/-! ### The bus and reset -/

/-- The next input is taken: it is pending no longer. -/
def takeInput (rest : List Input) (s : State) : State := { s with pending := rest }

/-- The bus answers. -/
def reply (r : Reply) (s : State) : State := { s with replies := r :: s.replies }

/-- `n` bytes of a read that gives an unspecified value, drawn afresh as number `d` (U1, U6; log 5). -/
def freeBytes (d n : Nat) : List Byte := (List.range n).map (Config.freeRead d)

/-- A free value has been drawn: the next has another number. -/
def drawn (s : State) : State := { s with draws := s.draws + 1 }

/-- Reset (rules R40, R210): the flags, `LEN`, `BLK` and the error register 0, the byte stores and `SEED`
unspecified, as unknowns of this reset. The capacity, the outside world's inputs and the answers given are no
state of the core and stay (log 9). -/
def applyReset (s : State) : State :=
  { s with
    hdr := Vector.ofFn fun i => Config.resetHdr (s.resets + 1) i
    seed := Config.resetSeed (s.resets + 1)
    seedv := false
    key := Vector.ofFn fun i => Config.resetKey (s.resets + 1) i
    keyv := false
    len := 0
    blk := 0
    buf := []
    err := false
    errcode := none
    resets := s.resets + 1 }

end Sys2Proof.Machine
end

