-- ==== Sys2Proof/Machine/Flags.lean ====
section
/-! DEFINITION. The flags. The core keeps no arithmetic flag (`10_state.md` rule R31); its flags are `SEEDV`, `KEYV`
and `ERR`, seen together in `STATUS` (rule R35) and read by the sequencing checks of `60_exceptions.md` rule R181. -/

namespace Sys2Proof.Machine

/-- One bit, widened to 32. -/
def flagBit (b : Bool) : Word := if b then 1 else 0

/-- `STATUS` (rule R35): bit 0 `SEEDV`, bit 1 `KEYV`, bit 2 `ERR`, bits 11:8 `ERRCODE`, every other bit 0. -/
def statusWord (s : State) : Word :=
  flagBit s.seedv ||| (flagBit s.keyv <<< 1) ||| (flagBit s.err <<< 2) ||| ((faultCode s.errcode).setWidth 32 <<< 8)

/-- A new seed (rules R91, R93): `SEED` written whole, `SEEDV` set, `KEYV` cleared; the bytes of `KEY` are not
rewritten (rule R41, "stale"). -/
def loadSeed (v : DWord) (s : State) : State := { s with seed := v, seedv := true, keyv := false }

/-- A new key (rule R112): `KEY` written whole, `KEYV` set. -/
def loadKey (k : Key) (s : State) : State := { s with key := k, keyv := true }

/-- Rule R182: a length that is not a multiple of 8 or exceeds the buffer memory. `LEN` = 0 is not malformed. -/
def malformedLength (s : State) : Bool := decide (s.len.toNat % 8 ≠ 0) || decide (s.bufcap.bytes < s.len.toNat)

/-- Rule R185: while `ERR` = 1 the command is ignored and no state changes. -/
def unlessError (s : State) (k : State) : State := if s.err then s else k

end Sys2Proof.Machine
end

