-- ==== Sys2Proof/Machine/Operands.lean ====
section
/-! DEFINITION. The operand forms. A command word names no operand (`30_encoding.md` rule R71): the operands are the
registers of rule R73, read through the accesses below; the payload through `MemRead` and `MemWrite` of
`20_memory.md` rule R56. -/

namespace Sys2Proof.Machine

/-- `HDR[0..7]` as SEEDLD reads them (rule R57: eight byte reads). -/
def hdrLow8 (s : State) : Block :=
  #v[s.hdr[0], s.hdr[1], s.hdr[2], s.hdr[3], s.hdr[4], s.hdr[5], s.hdr[6], s.hdr[7]]

/-- The address of block `blk` of the payload, "always at buffer offset 0" for block 0 (rules R54, R55). -/
def blockAddr (blk : Word) : Nat := 8 * blk.toNat

/-- `MemRead(addr, 1)` (rule R56). -/
def memRead1 (s : State) (a : Nat) : Byte := s.bufByte a

/-- The eight bytes at an address, each by `MemRead(addr + k, 1)`. -/
def readBytes8 (s : State) (a : Nat) : Block :=
  #v[memRead1 s a, memRead1 s (a + 1), memRead1 s (a + 2), memRead1 s (a + 3),
     memRead1 s (a + 4), memRead1 s (a + 5), memRead1 s (a + 6), memRead1 s (a + 7)]

/-- `MemRead(addr, 8)` (rule R56). -/
def memRead8 (s : State) (a : Nat) : DWord := le64 (readBytes8 s a)

/-- `MemWrite(addr, 1, v)` (rule R56). -/
def memWrite1 (s : State) (a : Nat) (v : Byte) : State := s.setBufByte a v

/-- The eight bytes at an address written, each by `MemWrite(addr + k, 1, b[k])`, k = 0..7. -/
def writeBytes8 (s : State) (a : Nat) (b : Block) : State := s.setBufBytes a b.toList

/-- `MemWrite(addr, 8, v)` (rule R56). -/
def memWrite8 (s : State) (a : Nat) (v : DWord) : State := writeBytes8 s a (bytes64 v)

/-- Block `BLK` of the payload, its eight bytes read in order (rules R136, R138: "A block is read whole"). -/
def readBlock (s : State) : Block := readBytes8 s (blockAddr s.blk)

/-- Block `BLK` of the payload written whole, byte by byte in order (rules R136, R138). -/
def writeBlock (b : Block) (s : State) : State := writeBytes8 s (blockAddr s.blk) b

/-- The index of the `i`-th key byte Round uses for a block, `(blk·8 + i) mod 256` (rules R59, R123). -/
def keyIndex (blk : Word) (i : Nat) : Fin 256 := ⟨(blk.toNat * 8 + i) % 256, Nat.mod_lt _ (by decide)⟩

/-- `K[(blk·8 + i) mod 256]` (rules R59, R123). -/
def roundKeyByte (k : Key) (blk : Word) (i : Nat) : Byte := k[keyIndex blk i]

end Sys2Proof.Machine
end

