-- ==== Sys2Proof/Machine/BlockCipher.lean ====
section
/-! DEFINITION. The BlockCipher: DEC and ENC (`42_block_cipher.md`). Round and Final in both directions as pure
functions of the key, the block index and the block; the block functions; the loop over the buffer. -/

namespace Sys2Proof.Machine

/-- 0, 1, ..., 7 in this order: the offsets of a block, and the key bytes of a block. -/
def upTo8 : List (Fin 8) := [0, 1, 2, 3, 4, 5, 6, 7]

/-! ### The two readings the spec decides (U14, log 11) -/

/-- `byte(blk)` as the low 8 bits of the block index (rule R135, decision D18). -/
def blkByteLow (blk : Word) : Byte := byteAt blk 0

/-- `byte(blk)` as a cast that saturates, the reading rule R135 does not take; no definition of the machine uses it. -/
def blkByteSaturated (blk : Word) : Byte := if blk.toNat < 256 then byteAt blk 0 else 0xFF

/-- `byte(blk)` as the machine reads it: decision D18. -/
def blkByte (blk : Word) : Byte := blkByteLow blk

/-- `u32(index)`: `trunc_32(blk · 8)` (rule R126). -/
def index32 (blk : Word) : Word := blk * 8

/-- `u32(index) << 10` computed at 32 bits and then zero-extended (rule R126, decision D19). -/
def indexTermNarrow (blk : Word) : DWord := zext64 (index32 blk <<< 10)

/-- `u32(index) << 10` computed at 64 bits, the reading rule R126 does not take (`95_test_vectors.md` section 4). -/
def indexTermWide (blk : Word) : DWord := zext64 (index32 blk) <<< 10

/-- `u32(index) << 10` as the machine reads it: decision D19. -/
def indexTerm (blk : Word) : DWord := indexTermNarrow blk

/-! ### Final's key material -/

/-- The block key from the value of its index term (rule R126). -/
def bkeyOf (t : DWord) (blk : Word) : DWord :=
  ((zext64 blk <<< 23) ||| t ||| zext64 (index32 blk) ||| (zext64 blk <<< 33)) + 0xA1652347

/-- `BKey(blk)` (rule R126). -/
def bkey (blk : Word) : DWord := bkeyOf (indexTerm blk) blk

/-- `EKey(K, blk)` = `K64[blk mod 32]` (rule R127). -/
def ekey (k : Key) (blk : Word) : DWord := key64 k ⟨blk.toNat % 32, Nat.mod_lt _ (by decide)⟩

/-! ### Round -/

/-- The initial `xorState`, 0x45 XOR `byte(blk)` (rules R123, R124). -/
def xorStart (blk : Word) : Byte := 0x45 ^^^ blkByte blk

/-- Decrypt Round's eight byte steps on one byte: each is 0x78 + byte − key byte `i`, i = 0..7 in order (rule R123). -/
def subKeyBytes (k : Key) (blk : Word) (x : Byte) : Byte :=
  upTo8.foldl (fun y i => (0x78 + y) - roundKeyByte k blk i.val) x

/-- Encrypt Round's eight byte steps on one byte: each is 0x88 + (byte + key byte `i`), i = 0..7 in order (rule R124). -/
def addKeyBytes (k : Key) (blk : Word) (x : Byte) : Byte :=
  upTo8.foldl (fun y i => 0x88 + (y + roundKeyByte k blk i.val)) x

/-- Decrypt Round at one offset: `xorState` becomes the input byte, taken before it is overwritten (rules R123, R138). -/
def roundDecAt (k : Key) (blk : Word) (st : Byte × Block) (offset : Fin 8) : Byte × Block :=
  (st.2[offset], st.2.set offset (subKeyBytes k blk (st.1 ^^^ st.2[offset])))

/-- `RoundDec(K, blk, b)` (rule R123): offsets 0 to 7 in order. -/
def roundDec (k : Key) (blk : Word) (b : Block) : Block := (upTo8.foldl (roundDecAt k blk) (xorStart blk, b)).2

/-- Encrypt Round at one offset: the byte is keyed, chained into `xorState`, and `xorState` is stored (rule R124). -/
def roundEncAt (k : Key) (blk : Word) (st : Byte × Block) (offset : Fin 8) : Byte × Block :=
  let x := st.1 ^^^ addKeyBytes k blk st.2[offset]
  (x, st.2.set offset x)

/-- `RoundEnc(K, blk, b)` (rule R124): offsets 0 to 7 in order. -/
def roundEnc (k : Key) (blk : Word) (b : Block) : Block := (upTo8.foldl (roundEncAt k blk) (xorStart blk, b)).2

/-! ### Final -/

/-- The half swap: bytes 4 to 7, then bytes 0 to 3 (rules R128, R129). -/
def swapHalves (b : Block) : Block := #v[b[4], b[5], b[6], b[7], b[0], b[1], b[2], b[3]]

/-- `FinalDec(K, blk, b)` (rule R128): mix, then swap the halves. -/
def finalDec (k : Key) (blk : Word) (b : Block) : Block :=
  swapHalves (bytes64 (ekey k blk ^^^ bkey blk ^^^ (le64 b - ekey k blk)))

/-- `FinalEnc(K, blk, b)` (rule R129): swap the halves first, then mix. -/
def finalEnc (k : Key) (blk : Word) (b : Block) : Block :=
  bytes64 ((ekey k blk ^^^ bkey blk ^^^ le64 (swapHalves b)) + ekey k blk)

/-! ### Blocks and buffers -/

/-- `DecBlock(K, blk, b)` (rule R130): Round, then Final. -/
def decBlock (k : Key) (blk : Word) (b : Block) : Block := finalDec k blk (roundDec k blk b)

/-- `EncBlock(K, blk, b)` (rule R131): Final, then Round. -/
def encBlock (k : Key) (blk : Word) (b : Block) : Block := roundEnc k blk (finalEnc k blk b)

/-- A byte array's blocks in ascending index order from `blk`, each replaced by its transform (rule R134). The
last bytes of an array whose length is no multiple of 8 stay as they are: the commands never get there (rule
R182). DESIGN CHOICE: the index is taken modulo 2^32, which matters from 2^35 bytes on, more than any core holds
(log 21). -/
def mapBlocks (f : Word → Block → Block) (blk : Word) : List Byte → List Byte
  | b0 :: b1 :: b2 :: b3 :: b4 :: b5 :: b6 :: b7 :: rest =>
    (f blk #v[b0, b1, b2, b3, b4, b5, b6, b7]).toList ++ mapBlocks f (blk + 1) rest
  | rest => rest

/-- `DecBuf(K, buf)` (rule R134). -/
def decBuf (k : Key) (buf : List Byte) : List Byte := mapBlocks (decBlock k) 0 buf

/-- `EncBuf(K, buf)` (rule R134). -/
def encBuf (k : Key) (buf : List Byte) : List Byte := mapBlocks (encBlock k) 0 buf

/-! ### The commands -/

/-- One turn of the loop of rules R136 and R137: block `BLK` is read whole, transformed under the same key, written
whole, and `BLK` goes up by one. -/
def cipherStep (f : Key → Word → Block → Block) (s : State) : State :=
  setBlk (s.blk + 1) (writeBlock (f s.key s.blk (readBlock s)) s)

/-- `n` turns of the loop. -/
def cipherSteps (f : Key → Word → Block → Block) : Nat → State → State
  | 0, s => s
  | n + 1, s => cipherSteps f n (cipherStep f s)

/-- The whole pass: `BLK` from 0, one turn for each of the `LEN`/8 blocks, then the discard (rules R28, R136, R137). -/
def cipherPass (f : Key → Word → Block → Block) (s : State) : State :=
  discard (cipherSteps f (s.len.toNat / 8) (setBlk 0 s))

/-- A cipher command with its checks in order: `ERR`, NOKEY, MALFORMED, all before any byte of `BUF` or `BLK` is
touched (rules R136, R181). -/
def cipherCommand (f : Key → Word → Block → Block) (s : State) : State :=
  unlessError s
    (if s.keyv then if malformedLength s then raise .malformed s else cipherPass f s else raise .nokey s)

/-- `ENC` (rule R137). -/
def execEnc (s : State) : Host.Outcome State Fault Refusal := .next (cipherCommand encBlock s)

/-- `DEC` (rule R136). -/
def execDec (s : State) : Host.Outcome State Fault Refusal := .next (cipherCommand decBlock s)

end Sys2Proof.Machine
end

