-- ==== Sys2Proof/Machine/Control.lean ====
section
/-! DEFINITION. The control commands: NOP and CLR (`43_control_commands.md`), and what a write of an illegal word does
(`60_exceptions.md` rule R183). -/

namespace Sys2Proof.Machine

/-- `NOP` (rule R150): "with `ERR` = 0 or `ERR` = 1 alike: no state changes". -/
def execNop (s : State) : Host.Outcome State Fault Refusal := .next s

/-- `CLR` (rule R151): seed and key discarded, `BLK` and the error register cleared. The one command that executes
while `ERR` = 1 (rule R185). -/
def execClr (s : State) : Host.Outcome State Fault Refusal := .next (ackFault (setBlk 0 (discard s)))

/-- A write of an illegal word to `CMD` (rules R181, R183): ILLCMD, or nothing while `ERR` = 1. -/
def illegalCommand (s : State) : State := unlessError s (raise .illcmd s)

end Sys2Proof.Machine
end

