-- ==== Sys2Proof/Machine/KeySchedule.lean ====
section
/-! DEFINITION. The KeySchedule: KEXP (`41_key_schedule.md`). The function works in place on a byte store, in the
order of rules R102 to R106; the store's size `n` is a parameter, 256 for `KEY`, so that the 32nd iteration of the
source into a longer store (rule R107) can be written too. -/

namespace Sys2Proof.Machine

/-- `loSeed` (rule R102). -/
def loSeed (s : DWord) : Word := low32 s

/-- `hiSeed` (rule R102). -/
def hiSeed (s : DWord) : Word := high32 s

/-- Step 2, the first two words (rule R103). -/
def firstWords {n : Nat} (k : Vector Byte n) (s : DWord) (h : 8 ≤ n := by omega) : Vector Byte n :=
  setWord32 (setWord32 k 0 (rotr32 (bswap32 (loSeed s)) 16)) 1 (rotl32 (bswap32 (hiSeed s)) 8)

/-- One line of step 3: the new byte `i` from the byte before it, already updated, and the old byte `i` (rule R105). -/
def mixByte (before old : Byte) : Byte := ((before - 0x2C) + old) ^^^ (before <<< 2) ^^^ 0x45

/-- Step 3, byte mixing of bytes 0 to `m`, in this order (rule R105; `m` is 7). -/
def mixBytes {n : Nat} (k : Vector Byte n) : (m : Nat) → (h : m < n) → Vector Byte n
  | 0, h => k.set 0 (k[0] + 0x45)
  | m + 1, h =>
    let k' := mixBytes k m (by omega)
    k'.set (m + 1) (mixByte k'[m] k'[m + 1])

/-- Step 4, iteration `it` (rule R106). With `kidx` = 2 + 2·`it` at its start, the indices below are `kidx−2` =
2·`it`, `kidx−1` = 2·`it`+1, `kidx` = 2·`it`+2, `kidx+1` = 2·`it`+3, and `(kidx/2)−1` = `it`. The two writes after
"`kidx += 2`" are again to words 2·`it`+2 and 2·`it`+3. -/
def expandStep {n : Nat} (k : Vector Byte n) (it : Nat) (h : 8 * it + 16 ≤ n := by omega) : Vector Byte n :=
  let a := 5 * word64 k it
  let a := a ^^^ (zext64 (word32 k (2 * it + 1)) <<< 32)
  let k := setWord32 k (2 * it + 2) (word32 k (2 * it) ^^^ low32 a)
  let k := setWord32 k (2 * it + 3) (high32 a)
  let a := zext64 (word32 k (2 * it)) ||| (a &&& 0xFFFFFFFF00000000)
  let b := word32 k (2 * it + 2)
  let k := setWord32 k (2 * it + 2) (low32 a ^^^ b)
  setWord32 k (2 * it + 3) (word32 k (2 * it + 3) ^^^ word32 k (2 * it + 1))

/-- Step 4: iterations 0 to `m`−1, in this order (rule R106). -/
def expandSteps {n : Nat} (k : Vector Byte n) : (m : Nat) → (h : 8 * m + 8 ≤ n) → Vector Byte n
  | 0, _ => k
  | m + 1, h => expandStep (expandSteps k m (by omega)) m

/-- Steps 1 to 4 in place on a store `k`, with `m` iterations of step 4 (rules R100 to R107). -/
def expandInto {n : Nat} (k : Vector Byte n) (m : Nat) (s : DWord) (h : 8 * m + 8 ≤ n := by omega) : Vector Byte n :=
  expandSteps (mixBytes (firstWords k s) 7 (by omega)) m h

/-- The key schedule run in place on `KEY`: 31 iterations into 256 bytes (rules R100, R106, R112). -/
def keyExpandOver (k : Key) (s : DWord) : Key := expandInto k 31 s

/-- `KeyExpand(s)` (rule R100): the content of the store afterwards. It does not depend on what the store held
(rule R110), so the store it starts from here is immaterial. -/
def keyExpand (s : DWord) : Key := keyExpandOver (Vector.replicate 256 0) s

/-- `KEXP` (rule R112): NOSEED if there is no valid seed; else the schedule runs in place on `KEY`. -/
def execKexp (s : State) : Host.Outcome State Fault Refusal :=
  .next (unlessError s (if s.seedv then loadKey (keyExpandOver s.key s.seed) s else raise .noseed s))

end Sys2Proof.Machine
end

