-- ==== Sys2Proof/Machine/SeedExtractor.lean ====
section
/-! DEFINITION. The SeedExtractor: SEEDX and SEEDLD (`40_seed_extractor.md`). -/

namespace Sys2Proof.Machine

/-- A header byte zero-extended to 64 bits and shifted left (rule R90: "each byte zero-extended before shifting"). -/
def seedField (b : Byte) (k : Nat) : DWord := b.setWidth 64 <<< k

/-- `SeedExtract(h)` (rule R90): bytes 9, 12, 2 and 0 of the 16, combined with OR. -/
def seedExtract (h : Hdr) : DWord := seedField h[9] 24 ||| seedField h[12] 16 ||| seedField h[2] 8 ||| seedField h[0] 0

/-- `SeedLiteral(h)` (rule R92): the little-endian value of the eight bytes. -/
def seedLiteral (h : Block) : DWord := le64 h

/-- `SEEDX` (rule R91). -/
def execSeedx (s : State) : Host.Outcome State Fault Refusal :=
  .next (unlessError s (loadSeed (seedExtract s.hdr) s))

/-- `SEEDLD` (rule R93). -/
def execSeedld (s : State) : Host.Outcome State Fault Refusal :=
  .next (unlessError s (loadSeed (seedLiteral (hdrLow8 s)) s))

end Sys2Proof.Machine
end

