-- ==== Sys2Proof/Machine/Window.lean ====
section
/-! DEFINITION. The host's register window (`10_state.md` rules R33 to R37): the map, which accesses it takes, and what
a host read and a host write do. A write to `CMD` is a command and is taken by the step itself. -/

namespace Sys2Proof.Machine

/-- The places of the window (rule R33). -/
inductive Loc where
  | cmd
  | status
  | len
  | blk
  | seedLo
  | seedHi
  | hdr
  | key
  | buf
  deriving DecidableEq, Repr

/-- One row of rule R33's table: a register takes only a 32-bit access at its own offset, a byte window takes 1, 2,
4 or 8 aligned bytes (rule R36). -/
structure WindowRow where
  loc : Loc
  base : Nat
  size : Nat
  isRegister : Bool
  deriving DecidableEq, Repr

/-- The map of rule R33, for a buffer memory of `cap` bytes. -/
def windowMap (cap : Nat) : List WindowRow :=
  [⟨.cmd, 0x000, 4, true⟩,
   ⟨.status, 0x004, 4, true⟩,
   ⟨.len, 0x008, 4, true⟩,
   ⟨.blk, 0x00C, 4, true⟩,
   ⟨.seedLo, 0x010, 4, true⟩,
   ⟨.seedHi, 0x014, 4, true⟩,
   ⟨.hdr, 0x020, 16, false⟩,
   ⟨.key, 0x100, 256, false⟩,
   ⟨.buf, 0x1000, cap, false⟩]

/-- The row an offset lies in; none where it is reserved (rules R33, R37). -/
def locate (cap off : Nat) : Option WindowRow :=
  (windowMap cap).find? fun r => decide (r.base ≤ off) && decide (off < r.base + r.size)

/-- Whether a row takes an access of `n` bytes at `off`, which lies in it (rule R36). -/
def rowTakes (r : WindowRow) (off n : Nat) : Except AccessRefusal Unit :=
  if r.isRegister then
    if n ≠ 4 then .error .badSize else if off ≠ r.base then .error .misaligned else .ok ()
  else if n ≠ 1 ∧ n ≠ 2 ∧ n ≠ 4 ∧ n ≠ 8 then .error .badSize
  else if r.base + r.size < off + n then .error .crossesWindow
  else if off % n ≠ 0 then .error .misaligned
  else .ok ()

/-- The place an access of `n` bytes at `off` reaches and the index in it, or why it is refused (rules R36, R37). -/
def access (cap off n : Nat) : Except AccessRefusal (Loc × Nat) :=
  match locate cap off with
  | none => .error .reservedOffset
  | some r =>
    match rowTakes r off n with
    | .error why => .error why
    | .ok _ => .ok (r.loc, off - r.base)

/-- Whether reading the place gives an unspecified value: `SEED` while `SEEDV` = 0, `KEY` while `KEYV` = 0 (rule R34). -/
def readsUnspecified (s : State) : Loc → Bool
  | .seedLo => !s.seedv
  | .seedHi => !s.seedv
  | .key => !s.keyv
  | .cmd => false
  | .status => false
  | .len => false
  | .blk => false
  | .hdr => false
  | .buf => false

/-- Byte `i` of a place, where it is specified (rule R33). `CMD` reads as 0; a register's bytes are those of its
value, little-endian (rule R36). -/
def locByte (s : State) (l : Loc) (i : Nat) : Byte :=
  match l with
  | .cmd => 0
  | .status => byteAt (statusWord s) i
  | .len => byteAt s.len i
  | .blk => byteAt s.blk i
  | .seedLo => byteAt (low32 s.seed) i
  | .seedHi => byteAt (high32 s.seed) i
  | .hdr => s.hdr.getD i 0
  | .key => s.key.getD i 0
  | .buf => s.bufByte i

/-- The `n` bytes of a place from index `i` up (rule R36: "exactly n byte accesses"). -/
def locBytes (s : State) (l : Loc) (i n : Nat) : List Byte := (List.range n).map fun k => locByte s l (i + k)

/-- A host read of `n` bytes at `off` (rules R33 to R37). No read has a side effect on the core; a read of an
unspecified value draws a free one (logs 5, 6). -/
def hostRead (off n : Nat) (s : State) : State :=
  match access s.bufcap.bytes off n with
  | .error why => drawn (reply (.refusedRead why (freeBytes s.draws n)) s)
  | .ok (l, i) =>
    if readsUnspecified s l then drawn (reply (.data (freeBytes s.draws n)) s)
    else reply (.data (locBytes s l i n)) s

/-- `LEN <- v` (rule R27: "Any 32-bit value can be written"). -/
def setLen (v : Word) (s : State) : State := { s with len := v }

/-- What writing the bytes at index `i` of a place the host may write does; none for a read-only place (rules R33,
R37). A write to `CMD` is a command: the step takes it, and nothing is stored (rule R183). -/
def writeLoc (l : Loc) (i : Nat) (bs : List Byte) (s : State) : Option State :=
  match l with
  | .cmd => some s
  | .len => (wordOfBytes bs).map fun v => setLen v s
  | .hdr => some (s.setHdrBytes i bs)
  | .buf => some (s.setBufBytes i bs)
  | .status => none
  | .blk => none
  | .seedLo => none
  | .seedHi => none
  | .key => none

/-- A host write of bytes at `off` that is no command (rules R33, R36, R37; log 6). -/
def hostWrite (off : Nat) (bs : List Byte) (s : State) : State :=
  match access s.bufcap.bytes off bs.length with
  | .error why => reply (.refusedWrite why) s
  | .ok (l, i) =>
    match writeLoc l i bs s with
    | some t => reply .written t
    | none => reply (.refusedWrite .readOnly) s

/-- The bytes of the command word, where the input is a 32-bit write to `CMD` (rule R70); none for any other input. -/
def commandBytes : Input → Option (List Byte)
  | .write off bs => if off = 0 ∧ bs.length = 4 then some bs else none
  | .read _ _ => none
  | .reset => none

/-- An input that is no command: a host access, or reset. -/
def applyInput (i : Input) (s : State) : State :=
  match i with
  | .write off bs => hostWrite off bs s
  | .read off n => hostRead off n s
  | .reset => applyReset s

/-- A command's bus write is taken and completes normally, whatever the command does (rule R187). -/
def acceptCommand (rest : List Input) (s : State) : State := reply .written (takeInput rest s)

end Sys2Proof.Machine
end

