-- ==== Sys2Proof/Machine/Step.lean ====
section
/-! DEFINITION. One step: one host write, one host read, one command, or one reset (`00_scope.md` rule R16). -/

namespace Sys2Proof.Machine

/-- One step. With nothing pending the core does nothing (rule R211). A 32-bit write to `CMD` is a command, run
whole (rules R15, R70); an illegal word is ILLCMD (rule R183); any other input is an access of the window or a
reset. -/
def step (s : State) : Host.Outcome State Fault Refusal :=
  match s.pending with
  | [] => .next s
  | i :: rest =>
    match commandBytes i with
    | none => .next (applyInput i (takeInput rest s))
    | some bs =>
      match decodeBytes bs with
      | .ok c => exec c (acceptCommand rest s)
      | .error _ => .next (illegalCommand (acceptCommand rest s))

/-- The state with a command word as the host's next access, a 32-bit write to `CMD`: the very next step runs it. -/
def State.withFetchWord (s : State) (nbits w : Nat) : State :=
  { s with pending := .write 0 (wordBytes (tableWord nbits w)) :: s.pending }

end Sys2Proof.Machine
end

