-- ==== Sys2Proof/Machine/HostProgram.lean ====
section
/-! DEFINITION. Host programs as lists of inputs: the notation of `30_encoding.md` rule R77 and the four macros of rule
R78. The host's side: nothing here is state or a command of the core. A line that covers a byte range is written as
single-byte accesses, one of the sequences rule R77 lets it stand for (log 13). -/

namespace Sys2Proof.Machine

/-- `WR` of a byte range from offset `off` up, lowest index first. -/
def wrBytes (off : Nat) : List Byte → List Input
  | [] => []
  | v :: rest => .write off [v] :: wrBytes (off + 1) rest

/-- `WR HDR[i..]`, the bytes. -/
def wrHdr (i : Nat) (bs : List Byte) : List Input := wrBytes (0x020 + i) bs

/-- `WR BUF[i..]`, the bytes. -/
def wrBuf (i : Nat) (bs : List Byte) : List Input := wrBytes (0x1000 + i) bs

/-- `WR LEN, n`: a 32-bit write at offset 0x008. DESIGN CHOICE, unsafe for host programs only: an `n` of 2^32 or more,
which `LEN` cannot express (decision D4), is written modulo 2^32 and not refused (log 21). -/
def wrLen (n : Nat) : Input := .write 0x008 (wordBytes (BitVec.ofNat 32 n))

/-- `CMD <mnemonic>`: the 32-bit write of its command word at offset 0x000. -/
def cmd (c : Instr) : Input := .write 0x000 (encodeBytes c)

/-- `RD BUF[i..i+n−1]`. -/
def rdBuf (i n : Nat) : List Input := (List.range n).map fun k => .read (0x1000 + (i + k)) 1

/-- The lines every macro of rule R78 shares, after its seed material is written. They are the macro's lines for data
of any length: data of 2^32 bytes or more is not refused, and `wrLen` writes its length modulo 2^32 (log 21). Nor is data longer than `BUFCAP` refused here: the core refuses the writes past
its window and faults (log 22). -/
def cipherLines (seedCmd cipherCmd : Instr) (data : List Byte) : List Input :=
  cmd seedCmd :: cmd .kexp :: wrBuf 0 data ++ wrLen data.length :: cmd cipherCmd :: rdBuf 0 data.length

/-- `DECRYPT.C h, data` (rule R78). -/
def decryptC (h : Hdr) (data : List Byte) : List Input := wrHdr 0 h.toList ++ cipherLines .seedx .dec data

/-- `ENCRYPT.C h, data` (rule R78). -/
def encryptC (h : Hdr) (data : List Byte) : List Input := wrHdr 0 h.toList ++ cipherLines .seedx .enc data

/-- `DECRYPT.S s, data` (rule R78). -/
def decryptS (s : Block) (data : List Byte) : List Input := wrHdr 0 s.toList ++ cipherLines .seedld .dec data

/-- `ENCRYPT.S s, data` (rule R78). -/
def encryptS (s : Block) (data : List Byte) : List Input := wrHdr 0 s.toList ++ cipherLines .seedld .enc data

end Sys2Proof.Machine
end

