-- ==== Sys2Proof/Machine/Container.lean ====
section
/-! DEFINITION. The host's ContainerCodec and the two asset layouts (`44_container_host.md`), as pure functions on
records. `00_scope.md` rule R6 keeps it out of the core: no step of the machine uses anything here. What rule R166
leaves open is left open: the body's offset `bodyOff` is an argument (U12), the digest `Config.digest` is
uninterpreted (U11). -/

namespace Sys2Proof.Machine

/-- The encrypted tag (rule R161). -/
def encryptedTag : Word := 0x1DE03478

/-- The decrypted tag (rule R161). -/
def decryptedTag : Word := 0xE21FCB87

/-- The container header (rule R161); `sizeBE` is its field read as a little-endian number (rule R162). -/
structure ContainerHeader where
  a : DWord
  b : DWord
  sizeBE : Word
  tag : Word
  reserved : DWord
  deriving DecidableEq, Repr

/-- The header's fields from its 32 bytes: bytes 0 to 7, 8 to 15, 16 to 19, 20 to 23, 24 to 31 (rule R161). -/
def parseHeader (h : Vector Byte 32) : ContainerHeader where
  a := word64 h 0
  b := word64 h 1
  sizeBE := word32 h 4
  tag := word32 h 5
  reserved := word64 h 3

/-- The body's length, `bswap32(SizeBE)` (rule R166, decision D32). -/
def bodyLength (h : ContainerHeader) : Nat := (bswap32 h.sizeBE).toNat

/-- `Size`, the total record length including the 16-byte head (rule R162). -/
def recordSize (h : ContainerHeader) : Nat := bodyLength h + 16

/-- `IsEncrypted` (rules R162, R164): the test is equality with the encrypted tag (conflict C7). -/
def isEncrypted (h : ContainerHeader) : Bool := h.tag == encryptedTag

/-- The seed in terms of the header's fields (rule R94). -/
def seedOfFields (a b : DWord) : DWord :=
  seedField (byteAt b 1) 24 ||| seedField (byteAt b 4) 16 ||| seedField (byteAt a 2) 8 ||| seedField (byteAt a 0) 0

/-- The host's own error: "a distinct malformed input signal" (rule R167). -/
inductive HostError where
  /-- A body that runs past the record, or a length that is no multiple of 8 (rule R167). DESIGN CHOICE, safe: so is
  a record shorter than its header where the path needs the body (log 13), a record too short to hold its tag on
  the decrypt path (log 20), and a script payload of fewer than 8 bytes (log 18). -/
  | malformedInput
  deriving DecidableEq, Repr

/-- The first `n` bytes of a record. A byte the record does not hold is 0 here, and no path uses one: `recordBody` and
`encryptedRecord` refuse a record too short for what they read, `scriptCipher` a payload without its prefix (logs
13, 18, 20). -/
def headBytes (n : Nat) (r : List Byte) : Vector Byte n := Vector.ofFn fun i => r.getD i 0

/-- A record with bytes replaced from `off` up. -/
def overwrite (r : List Byte) (off : Nat) (bs : List Byte) : List Byte := r.take off ++ bs ++ r.drop (off + bs.length)

/-- A record's body, where the record holds all of it and its length is a multiple of 8 (rule R167). -/
def recordBody (bodyOff : Nat) (r : List Byte) : Except HostError (List Byte) :=
  let n := bodyLength (parseHeader (headBytes 32 r))
  if r.length < 32 ∨ r.length < bodyOff + n ∨ n % 8 ≠ 0 then .error .malformedInput
  else .ok ((r.drop bodyOff).take n)

/-- The branch of the decrypt path: whether the record is tagged encrypted (rules R162, R164). DESIGN CHOICE: a record
of fewer than 24 bytes holds no tag to test and is malformed input (safe); one of 24 to 31 bytes has its tag tested
although its header is incomplete (unsafe for whole-file claims about such a record; log 20). -/
def encryptedRecord (r : List Byte) : Except HostError Bool :=
  if r.length < 24 then .error .malformedInput else .ok (isEncrypted (parseHeader (headBytes 32 r)))

/-- The decrypt path (rules R163, R164): the body decrypted, the tag set to the decrypted one; a record that is not
tagged encrypted is left as it is. DESIGN CHOICE, unsafe for whole-file claims: record bytes 0 to 15 are not restored
but stay as they are, a point rule R166 (b) leaves unsettled (log 19); and a body longer than `BUFCAP` is decrypted
whole, since the function knows no capacity (log 22). -/
def containerDecrypt (bodyOff : Nat) (r : List Byte) : Except HostError (List Byte) :=
  match encryptedRecord r with
  | .error e => .error e
  | .ok false => .ok r
  | .ok true =>
    match recordBody bodyOff r with
    | .error e => .error e
    | .ok body =>
      let plain := decBuf (keyExpand (seedExtract (headBytes 16 r))) body
      .ok (overwrite (overwrite r bodyOff plain) 20 (wordBytes decryptedTag))

/-- The encrypt path (rule R165): the seed from the original `A`, `B`; the body encrypted; the head replaced by the
digest of the plaintext body; the tag set to the encrypted one. DESIGN CHOICE, unsafe for whole-file claims: a body
longer than `BUFCAP` is encrypted whole (log 22). -/
def containerEncrypt (bodyOff : Nat) (r : List Byte) : Except HostError (List Byte) :=
  match recordBody bodyOff r with
  | .error e => .error e
  | .ok body =>
    let cipher := encBuf (keyExpand (seedExtract (headBytes 16 r))) body
    .ok (overwrite (overwrite (overwrite r bodyOff cipher) 0 (Config.digest body).toList) 20 (wordBytes encryptedTag))

/-- The script paths (rules R168, R169): the first 8 bytes are the literal seed and stay; the rest, a multiple of 8,
goes through the cipher. DESIGN CHOICE, safe: a payload of fewer than 8 bytes, on which the source is silent
(`91_not_in_source.md` N12), is malformed input (log 18). DESIGN CHOICE, unsafe for whole-file claims: a rest longer
than `BUFCAP` is ciphered whole (log 22). -/
def scriptCipher (f : Key → List Byte → List Byte) (p : List Byte) : Except HostError (List Byte) :=
  if p.length < 8 ∨ (p.length - 8) % 8 ≠ 0 then .error .malformedInput
  else .ok (p.take 8 ++ f (keyExpand (seedLiteral (headBytes 8 p))) (p.drop 8))

/-- Script decrypt (rule R169). -/
def scriptDecrypt (p : List Byte) : Except HostError (List Byte) := scriptCipher decBuf p

/-- Script encrypt (rule R169). -/
def scriptEncrypt (p : List Byte) : Except HostError (List Byte) := scriptCipher encBuf p

/-- The accesses of the core the decrypt path makes (rule R163): none for a record that is not tagged encrypted
(rule R164: "The host issues no core command in that case"). For a body longer than `BUFCAP` they are the same lines,
and the core answers MALFORMED (log 22). -/
def containerDecryptInputs (bodyOff : Nat) (r : List Byte) : Except HostError (List Input) :=
  match encryptedRecord r with
  | .error e => .error e
  | .ok false => .ok []
  | .ok true => (recordBody bodyOff r).map (decryptC (headBytes 16 r))

/-- The accesses of the core the encrypt path makes (rule R165). For a body longer than `BUFCAP` they are the same lines,
and the core answers MALFORMED (log 22). -/
def containerEncryptInputs (bodyOff : Nat) (r : List Byte) : Except HostError (List Input) :=
  (recordBody bodyOff r).map (encryptC (headBytes 16 r))

end Sys2Proof.Machine
end

