-- ==== Sys2Proof/Safety.lean ====
section
/-! DEFINITION. What counts as a safe run, and the invariants claims are stated with. -/

namespace Sys2Proof.Machine

/-- Rule R217: "A run has 'gone wrong' if `ERR` = 1 in its final state." -/
def goneWrong (s : State) : Bool := s.err

/-- Rule R25: "`KEYV` = 1 implies `SEEDV` = 1 and `KEY` = `KeyExpand(SEED)`." -/
def KeyInv (s : State) : Prop := s.keyv = true → s.seedv = true ∧ s.key = keyExpand s.seed

/-- Rule R30: "`ERR` = 0 implies `ERRCODE` = 0"; and a set `ERR` has a code (rule R186). -/
def ErrInv (s : State) : Prop := s.err = s.errcode.isSome

/-- The buffer memory is in canonical form and holds no byte at or above `BUFCAP` (rule R29). -/
def BufInv (s : State) : Prop := Memory.wf s.buf = true ∧ Memory.below s.bufcap.bytes s.buf = true

/-- Rule R26: `BLK` "never reaches 2^29, so it never wraps"; it never counts past the buffer's blocks. -/
def BlkInv (s : State) : Prop := 8 * s.blk.toNat ≤ s.bufcap.bytes

/-- The invariant of the machine. -/
def Inv (s : State) : Prop := KeyInv s ∧ ErrInv s ∧ BufInv s ∧ BlkInv s

/-- The three phases of rule R213, from the validity flags; (0, 1) is none of them. -/
inductive Phase where
  | idle
  | seeded
  | keyed
  | unreachable
  deriving DecidableEq, Repr

/-- The phase of a state (rule R213). -/
def phase (s : State) : Phase :=
  match s.seedv, s.keyv with
  | false, false => .idle
  | true, false => .seeded
  | true, true => .keyed
  | false, true => .unreachable

/-- Rule R213's table for `ERR` = 0: the phase a command leads to, and the fault it raises. A fault keeps the phase. -/
def phaseTable (p : Phase) (i : Instr) (badLength : Bool) : Phase × Option CmdFault :=
  match i, p with
  | .nop, p => (p, none)
  | .seedx, _ => (.seeded, none)
  | .seedld, _ => (.seeded, none)
  | .kexp, .idle => (.idle, some .noseed)
  | .kexp, _ => (.keyed, none)
  | .enc, .keyed => if badLength then (.keyed, some .malformed) else (.idle, none)
  | .enc, p => (p, some .nokey)
  | .dec, .keyed => if badLength then (.keyed, some .malformed) else (.idle, none)
  | .dec, p => (p, some .nokey)
  | .clr, _ => (.idle, none)

/-- When an ENC or a DEC executes normally (rules R136, R137, R181): no fault recorded, a valid key, and a length that
is a multiple of 8 and fits the buffer memory. -/
def CipherReady (s : State) : Prop :=
  s.err = false ∧ s.keyv = true ∧ s.len.toNat % 8 = 0 ∧ s.len.toNat ≤ s.bufcap.bytes

/-- The first `n` bytes of `BUF`. -/
def payload (s : State) (n : Nat) : List Byte := (List.range n).map s.bufByte

/-- What a completed ENC or DEC leaves (rules R28, R41, R136, R137): the first `LEN` bytes of `BUF` are the buffer
function of what they were, the bytes above are as they were, `BLK` = `LEN`/8, both validity flags cleared, the bits
of `SEED` and `KEY` undefined (any `sd`, any `ky`), and nothing else changed. -/
def PassDone (bufFn : Key → List Byte → List Byte) (s t : State) : Prop :=
  payload t s.len.toNat = bufFn s.key (payload s s.len.toNat) ∧
  (∀ a, s.len.toNat ≤ a → t.bufByte a = s.bufByte a) ∧
  ∃ (m : List Host.Cell) (sd : DWord) (ky : Key) (d : Nat),
    t = { s with
      buf := m, blk := BitVec.ofNat 32 (s.len.toNat / 8), seed := sd, seedv := false, key := ky, keyv := false, draws := d }

/-- Two states that agree on all but what is not defined: the bits of `SEED` while `SEEDV` = 0 and of `KEY` while
`KEYV` = 0 (rules R22, R24, R34). -/
def AgreeOnDefined (s t : State) : Prop :=
  t = { s with seed := t.seed, key := t.key } ∧ (s.seedv = true → t.seed = s.seed) ∧ (s.keyv = true → t.key = s.key)

end Sys2Proof.Machine
end

