-- ==== Sys2Proof/Certificates/Slice0/Obligations.lean ====
section
/-! DEFINITION. The statements for the provers. Each docstring names the rule of `spec/` its statement formalises, or
the sections it rests on. -/

open Sys2Proof
open Sys2Proof.Machine

/-- The seven command words, and their bytes, decode to the seven commands (derived: 30_encoding.md section 2 (R72),
opcode_table.json). -/
def Obligations.EachCommandWordDecodes : Prop :=
  decode 0x00000000 = .ok .nop ∧ decode 0x00000001 = .ok .seedx ∧ decode 0x00000002 = .ok .seedld ∧
  decode 0x00000003 = .ok .kexp ∧ decode 0x00000004 = .ok .enc ∧ decode 0x00000005 = .ok .dec ∧
  decode 0x00000006 = .ok .clr ∧
  decodeBytes [0x00, 0x00, 0x00, 0x00] = .ok .nop ∧ decodeBytes [0x01, 0x00, 0x00, 0x00] = .ok .seedx ∧
  decodeBytes [0x02, 0x00, 0x00, 0x00] = .ok .seedld ∧ decodeBytes [0x03, 0x00, 0x00, 0x00] = .ok .kexp ∧
  decodeBytes [0x04, 0x00, 0x00, 0x00] = .ok .enc ∧ decodeBytes [0x05, 0x00, 0x00, 0x00] = .ok .dec ∧
  decodeBytes [0x06, 0x00, 0x00, 0x00] = .ok .clr

/-- decode(w) is illegal exactly when w > 6 (rule R75). -/
def Obligations.DecodeIsIllegalExactlyAboveSix : Prop :=
  ∀ w : Word, ((∃ i, decode w = .ok i) ∨ ∃ r, decode w = .error r) ∧ ((∃ r, decode w = .error r) ↔ 6 < w.toNat)

/-- Decode and encode agree in both directions, over all byte strings (derived: 30_encoding.md sections 1 and 2
(R70, R71, R72)). -/
def Obligations.OnlyItsEncodingDecodesToACommand : Prop :=
  ∀ (bs : List Byte) (i : Instr), i.wellFormed = true → (decodeBytes bs = .ok i ↔ bs = encodeBytes i)

/-- A step whose next input is a command word runs the decoded command (derived: 00_scope.md section 6 (R15, R16),
30_encoding.md section 1 (R70), 60_exceptions.md section 2 (R187)). That inputs and answers are lists in the state
is the model's choice (logs 7, 8). -/
def Obligations.StepRunsTheDecodedCommand : Prop :=
  ∀ (s : State) (bs : List Byte) (rest : List Input) (i : Instr),
    s.pending = .write 0 bs :: rest → decodeBytes bs = .ok i → i.wellFormed = true →
    step s = exec i { s with pending := rest, replies := .written :: s.replies }

/-- A command word placed as the next input is run by the very next step (derived: 00_scope.md section 6 (R16),
30_encoding.md section 1 (R70)). That inputs are queued in the state is the model's choice (log 7). -/
def Obligations.PlacedWordIsTheNextCommand : Prop :=
  ∀ (s : State) (i : Instr),
    step (s.withFetchWord 32 (encode i).toNat) = exec i { s with replies := .written :: s.replies }

/-- With no input pending a step changes nothing (derived: 70_reset_and_hazards.md section 1 (R211)). That inputs
are queued in the state is the model's choice (log 7). -/
def Obligations.NothingPendingNothingChanges : Prop :=
  ∀ s : State, s.pending = [] → step s = .next s

/-- A write to CMD makes the checks of R181 in their order (rule R181). -/
def Obligations.CommandWriteFollowsTheCheckOrder : Prop :=
  ∀ (s : State) (w : Word) (rest : List Input), s.pending = .write 0 (wordBytes w) :: rest →
    let a : State := { s with pending := rest, replies := .written :: s.replies }
    let cipher : Prop := w = 4 ∨ w = 5
    let badLength : Prop := s.len.toNat % 8 ≠ 0 ∨ s.bufcap.bytes < s.len.toNat
    (w = 6 → step s = exec .clr a) ∧
    (w ≠ 6 → s.err = true → step s = .next a) ∧
    (s.err = false → 6 < w.toNat → step s = .next { a with err := true, errcode := some .illcmd }) ∧
    (s.err = false → w = 0 → step s = .next a) ∧
    (s.err = false → w = 3 → s.seedv = false → step s = .next { a with err := true, errcode := some .noseed }) ∧
    (s.err = false → cipher → s.keyv = false → step s = .next { a with err := true, errcode := some .nokey }) ∧
    (s.err = false → cipher → s.keyv = true → badLength →
      step s = .next { a with err := true, errcode := some .malformed }) ∧
    (s.err = false → (w = 1 ∨ w = 2 ∨ (w = 3 ∧ s.seedv = true) ∨ (cipher ∧ s.keyv = true ∧ ¬ badLength)) →
      ∃ i t, decode w = .ok i ∧ step s = exec i a ∧ exec i a = .next t ∧ t.err = false)

/-- While ERR = 1 every word but CLR is ignored, and the window works as usual (derived: 60_exceptions.md section 2
(R185)). That a read of an unspecified value draws the same free bytes in both states is the model's choice (log 5,
DESIGN CHOICE). -/
def Obligations.ErrorBlocksAllButClrAndTheWindow : Prop :=
  ∀ s : State, s.err = true →
    (∀ (w : Word) (rest : List Input), s.pending = .write 0 (wordBytes w) :: rest → w ≠ 6 →
      step s = .next { s with pending := rest, replies := .written :: s.replies }) ∧
    (∀ (off : Nat) (bs : List Byte) (rest : List Input), s.pending = .write off bs :: rest →
      commandBytes (.write off bs) = none →
      ∃ t, step { s with err := false, errcode := none } = .next t ∧
        step s = .next { t with err := true, errcode := s.errcode }) ∧
    (∀ (off n : Nat) (rest : List Input), s.pending = .read off n :: rest → off ≠ 0x004 →
      ∃ t, step { s with err := false, errcode := none } = .next t ∧
        step s = .next { t with err := true, errcode := s.errcode })

/-- Every command and every step answers a next state (derived: 60_exceptions.md section 2 (R189),
70_reset_and_hazards.md section 4 (R216)). That no step ever stops rests on log 12 (DEDUCED: the faults of a command
are next states) and on log 6 (DESIGN CHOICE: a refused host access goes on). -/
def Obligations.EveryStepAnswersANextState : Prop :=
  (∀ (i : Instr) (s : State), ∃ t, exec i s = .next t) ∧ ∀ s : State, ∃ t, step s = .next t

/-- STATUS has the layout of R35, reads so, and a write to it changes nothing (rule R35). -/
def Obligations.StatusLayoutAndReadOnly : Prop :=
  (∀ s : State, (statusWord s).getLsbD 0 = s.seedv ∧ (statusWord s).getLsbD 1 = s.keyv ∧
    (statusWord s).getLsbD 2 = s.err ∧ (statusWord s).extractLsb' 8 4 = faultCode s.errcode ∧
    ∀ b, (3 ≤ b ∧ b ≤ 7) ∨ 12 ≤ b → (statusWord s).getLsbD b = false) ∧
  (faultCode none = 0 ∧ faultCode (some .malformed) = 1 ∧ faultCode (some .illcmd) = 2 ∧
    faultCode (some .noseed) = 3 ∧ faultCode (some .nokey) = 4) ∧
  (∀ (s : State) (rest : List Input), s.pending = .read 0x004 4 :: rest →
    step s = .next { s with pending := rest, replies := .data (wordBytes (statusWord s)) :: s.replies }) ∧
  (∀ (s : State) (bs : List Byte) (rest : List Input), s.pending = .write 0x004 bs :: rest → bs.length = 4 →
    ∃ r, step s = .next { s with pending := rest, replies := r :: s.replies })

/-- The window takes exactly the accesses R33 and R36 allow, and places them (derived: 10_state.md section 3 (R33,
R36, R37)). -/
def Obligations.WindowTakesExactlyTheAllowedAccesses : Prop :=
  ∀ (cap off n : Nat) (l : Loc) (i : Nat), access cap off n = .ok (l, i) ↔
    (i = 0 ∧ n = 4 ∧ ((l = .cmd ∧ off = 0x000) ∨ (l = .status ∧ off = 0x004) ∨ (l = .len ∧ off = 0x008) ∨
      (l = .blk ∧ off = 0x00C) ∨ (l = .seedLo ∧ off = 0x010) ∨ (l = .seedHi ∧ off = 0x014))) ∨
    ((n = 1 ∨ n = 2 ∨ n = 4 ∨ n = 8) ∧ off % n = 0 ∧
      ((l = .hdr ∧ off = 0x020 + i ∧ i + n ≤ 16) ∨ (l = .key ∧ off = 0x100 + i ∧ i + n ≤ 256) ∨
        (l = .buf ∧ off = 0x1000 + i ∧ i + n ≤ cap)))

/-- A refused access, and a write to a read-only place, changes no state of the core (derived: 10_state.md section 3
(R37), 93_implementation_defined.md U6). That the machine goes on and names the refusal in its answer is the model's
choice (log 6), and so is how a refused read's bytes are drawn (log 5). -/
def Obligations.RefusedAccessesChangeNothing : Prop :=
  (∀ (s : State) (off : Nat) (bs : List Byte) (rest : List Input) (why : AccessRefusal),
    s.pending = .write off bs :: rest → access s.bufcap.bytes off bs.length = .error why →
    step s = .next { s with pending := rest, replies := .refusedWrite why :: s.replies }) ∧
  (∀ (s : State) (off n : Nat) (rest : List Input) (why : AccessRefusal),
    s.pending = .read off n :: rest → access s.bufcap.bytes off n = .error why →
    step s = .next { s with
      pending := rest, replies := .refusedRead why (freeBytes s.draws n) :: s.replies, draws := s.draws + 1 }) ∧
  (∀ (s : State) (off : Nat) (bs : List Byte) (rest : List Input) (l : Loc) (i : Nat),
    s.pending = .write off bs :: rest → access s.bufcap.bytes off bs.length = .ok (l, i) →
    l = .status ∨ l = .blk ∨ l = .seedLo ∨ l = .seedHi ∨ l = .key →
    step s = .next { s with pending := rest, replies := .refusedWrite .readOnly :: s.replies })

/-- No host read changes any state of the core (derived: 10_state.md section 3 (R36), 20_memory.md section 4 (R61)).
The number of the next free value is the model's own (log 5). -/
def Obligations.HostReadsHaveNoSideEffect : Prop :=
  ∀ (s : State) (off n : Nat) (rest : List Input), s.pending = .read off n :: rest →
    ∃ r d, step s = .next { s with pending := rest, replies := r :: s.replies, draws := d }

/-- SEED and KEY read exactly while valid, and any value while not (derived: 10_state.md section 3 (R34),
93_implementation_defined.md U1). While the flag is 0 the bytes drawn afresh, by a counter, are the model's choice
(log 5, DESIGN CHOICE). -/
def Obligations.SeedAndKeyReadOnlyWhileValid : Prop :=
  (∀ (s : State) (rest : List Input), s.pending = .read 0x010 4 :: rest →
    step s = .next (if s.seedv
      then { s with pending := rest, replies := .data (wordBytes (low32 s.seed)) :: s.replies }
      else { s with pending := rest, replies := .data (freeBytes s.draws 4) :: s.replies, draws := s.draws + 1 })) ∧
  (∀ (s : State) (rest : List Input), s.pending = .read 0x014 4 :: rest →
    step s = .next (if s.seedv
      then { s with pending := rest, replies := .data (wordBytes (high32 s.seed)) :: s.replies }
      else { s with pending := rest, replies := .data (freeBytes s.draws 4) :: s.replies, draws := s.draws + 1 })) ∧
  (∀ (s : State) (i n : Nat) (rest : List Input), s.pending = .read (0x100 + i) n :: rest →
    n = 1 ∨ n = 2 ∨ n = 4 ∨ n = 8 → i % n = 0 → i + n ≤ 256 →
    step s = .next (if s.keyv
      then { s with pending := rest, replies := .data ((List.range n).map fun k => s.key.getD (i + k) 0) :: s.replies }
      else { s with pending := rest, replies := .data (freeBytes s.draws n) :: s.replies, draws := s.draws + 1 }))

/-- Reads of CMD, LEN, BLK, HDR and BUF give their content, little-endian (derived: 10_state.md section 3 (R33,
R36)). -/
def Obligations.OtherReadsGiveTheStoredValue : Prop :=
  (∀ (s : State) (rest : List Input), s.pending = .read 0x000 4 :: rest →
    step s = .next { s with pending := rest, replies := .data [0, 0, 0, 0] :: s.replies }) ∧
  (∀ (s : State) (rest : List Input), s.pending = .read 0x008 4 :: rest →
    step s = .next { s with pending := rest, replies := .data (wordBytes s.len) :: s.replies }) ∧
  (∀ (s : State) (rest : List Input), s.pending = .read 0x00C 4 :: rest →
    step s = .next { s with pending := rest, replies := .data (wordBytes s.blk) :: s.replies }) ∧
  (∀ (s : State) (i n : Nat) (rest : List Input), s.pending = .read (0x020 + i) n :: rest →
    n = 1 ∨ n = 2 ∨ n = 4 ∨ n = 8 → i % n = 0 → i + n ≤ 16 →
    step s = .next { s with
      pending := rest, replies := .data ((List.range n).map fun k => s.hdr.getD (i + k) 0) :: s.replies }) ∧
  (∀ (s : State) (i n : Nat) (rest : List Input), s.pending = .read (0x1000 + i) n :: rest →
    n = 1 ∨ n = 2 ∨ n = 4 ∨ n = 8 → i % n = 0 → i + n ≤ s.bufcap.bytes →
    step s = .next { s with
      pending := rest, replies := .data ((List.range n).map fun k => s.bufByte (i + k)) :: s.replies })

/-- A 32-bit write of LEN stores any value (derived: 10_state.md section 1 (R27), section 3 (R33, R36)). -/
def Obligations.HostWriteSetsTheLength : Prop :=
  ∀ (s : State) (v : Word) (rest : List Input), s.pending = .write 0x008 (wordBytes v) :: rest →
    step s = .next { s with pending := rest, replies := .written :: s.replies, len := v }

/-- A host write inside the HDR window stores its bytes there and nowhere else (derived: 10_state.md section 1
(R21), section 3 (R33, R36)). -/
def Obligations.HostWriteStoresHeaderBytes : Prop :=
  ∀ (s : State) (i : Nat) (bs : List Byte) (rest : List Input), s.pending = .write (0x020 + i) bs :: rest →
    bs.length = 1 ∨ bs.length = 2 ∨ bs.length = 4 ∨ bs.length = 8 → i % bs.length = 0 → i + bs.length ≤ 16 →
    ∃ h : Hdr,
      step s = .next { s with pending := rest, replies := .written :: s.replies, hdr := h } ∧
      ∀ x, x < 16 → h.getD x 0 = if i ≤ x ∧ x < i + bs.length then bs.getD (x - i) 0 else s.hdr.getD x 0

/-- A host write inside the BUF window stores its bytes there and nowhere else (derived: 10_state.md section 1
(R29), section 3 (R33, R36)). -/
def Obligations.HostWriteStoresBufferBytes : Prop :=
  ∀ (s : State) (i : Nat) (bs : List Byte) (rest : List Input), s.pending = .write (0x1000 + i) bs :: rest →
    bs.length = 1 ∨ bs.length = 2 ∨ bs.length = 4 ∨ bs.length = 8 → i % bs.length = 0 →
    i + bs.length ≤ s.bufcap.bytes →
    ∃ t m, step s = .next t ∧ t = { s with pending := rest, replies := .written :: s.replies, buf := m } ∧
      (∀ k, k < bs.length → t.bufByte (i + k) = bs.getD k 0) ∧
      ∀ a, a < i ∨ i + bs.length ≤ a → t.bufByte a = s.bufByte a

/-- MemRead and MemWrite of 1 and 8 bytes are the byte accesses of R56 (rule R56). -/
def Obligations.BufferPrimitivesReadAndWriteBytes : Prop :=
  (∀ (s : State) (a : Nat), memRead1 s a = s.bufByte a) ∧
  (∀ (s : State) (a : Nat), memRead8 s a = le64
    #v[s.bufByte a, s.bufByte (a + 1), s.bufByte (a + 2), s.bufByte (a + 3),
       s.bufByte (a + 4), s.bufByte (a + 5), s.bufByte (a + 6), s.bufByte (a + 7)]) ∧
  (∀ (s : State) (a x : Nat) (v : Byte), (memWrite1 s a v).bufByte x = if x = a then v else s.bufByte x) ∧
  (∀ (s : State) (a : Nat) (v : DWord), (∀ k, k < 8 → (memWrite8 s a v).bufByte (a + k) = byteAt v k) ∧
    (∀ x, x < a ∨ a + 8 ≤ x → (memWrite8 s a v).bufByte x = s.bufByte x) ∧ memRead8 (memWrite8 s a v) a = v) ∧
  (∀ (i : Instr) (s : State), i = .enc ∨ i = .dec → ¬ CipherReady s →
    ∃ t, exec i s = .next t ∧ t.buf = s.buf ∧ t.blk = s.blk) ∧
  (∀ (s : State) (blk : Word), CipherReady s → blk.toNat < s.len.toNat / 8 →
    blockAddr blk % 8 = 0 ∧ blockAddr blk + 8 ≤ s.len.toNat ∧ blockAddr blk + 8 ≤ s.bufcap.bytes)

/-- Every 32-bit and 64-bit view of byte storage is little-endian (rule R51). -/
def Obligations.WordViewsAreLittleEndian : Prop :=
  (∀ (k : Key) (i : Fin 64), (key32 k i).toNat =
    k[4 * i.val].toNat + k[4 * i.val + 1].toNat * 2 ^ 8 + k[4 * i.val + 2].toNat * 2 ^ 16 + k[4 * i.val + 3].toNat * 2 ^ 24) ∧
  (∀ (k : Key) (j : Fin 32), (key64 k j).toNat =
    k[8 * j.val].toNat + k[8 * j.val + 1].toNat * 2 ^ 8 + k[8 * j.val + 2].toNat * 2 ^ 16 + k[8 * j.val + 3].toNat * 2 ^ 24 +
    k[8 * j.val + 4].toNat * 2 ^ 32 + k[8 * j.val + 5].toNat * 2 ^ 40 + k[8 * j.val + 6].toNat * 2 ^ 48 +
    k[8 * j.val + 7].toNat * 2 ^ 56) ∧
  (∀ (k : Key) (j : Fin 32), (key64 k j).toNat =
    (key32 k ⟨2 * j.val, by omega⟩).toNat + (key32 k ⟨2 * j.val + 1, by omega⟩).toNat * 2 ^ 32) ∧
  (∀ (k : Key) (i : Fin 64) (v : Word) (x : Fin 256),
    (setWord32 k i.val v)[x] = if x.val / 4 = i.val then byteAt v (x.val % 4) else k[x]) ∧
  (∀ b : Block, (le64 b).toNat = b[0].toNat + b[1].toNat * 2 ^ 8 + b[2].toNat * 2 ^ 16 + b[3].toNat * 2 ^ 24 +
    b[4].toNat * 2 ^ 32 + b[5].toNat * 2 ^ 40 + b[6].toNat * 2 ^ 48 + b[7].toNat * 2 ^ 56) ∧
  (∀ b : Block, lo32 b = (le64 b).extractLsb' 0 32 ∧ hi32 b = (le64 b).extractLsb' 32 32 ∧
    (lo32 b).toNat = b[0].toNat + b[1].toNat * 2 ^ 8 + b[2].toNat * 2 ^ 16 + b[3].toNat * 2 ^ 24 ∧
    (hi32 b).toNat = b[4].toNat + b[5].toNat * 2 ^ 8 + b[6].toNat * 2 ^ 16 + b[7].toNat * 2 ^ 24) ∧
  (∀ (v : DWord) (b : Block), bytes64 v = b ↔ le64 b = v)

/-- A write through the 32-bit view is seen by every view and changes no other word (derived: 20_memory.md section 2
(R51, R52)). -/
def Obligations.ViewsShareOneStore : Prop :=
  ∀ (k : Key) (i : Fin 64) (v : Word),
    key32 (setWord32 k i.val v) i = v ∧
    (∀ j : Fin 64, j ≠ i → key32 (setWord32 k i.val v) j = key32 k j) ∧
    key64 (setWord32 k i.val v) ⟨i.val / 2, by omega⟩ =
      if i.val % 2 = 0 then join64 v (high32 (key64 k ⟨i.val / 2, by omega⟩))
      else join64 (low32 (key64 k ⟨i.val / 2, by omega⟩)) v

/-- SEEDX loads the seed from HDR bytes 9, 12, 2 and 0 (rule R91). -/
def Obligations.SeedxLoadsTheSelectedBytes : Prop :=
  (∀ s : State, s.err = true → exec .seedx s = .next s) ∧
  ∀ s : State, s.err = false → exec .seedx s = .next { s with
    seed := BitVec.ofNat 64
      (s.hdr[9].toNat * 2 ^ 24 + s.hdr[12].toNat * 2 ^ 16 + s.hdr[2].toNat * 2 ^ 8 + s.hdr[0].toNat)
    seedv := true
    keyv := false }

/-- SEEDLD loads the seed from HDR[0..7], little-endian (rule R93). -/
def Obligations.SeedldLoadsTheLittleEndianPrefix : Prop :=
  (∀ s : State, s.err = true → exec .seedld s = .next s) ∧
  ∀ s : State, s.err = false → exec .seedld s = .next { s with
    seed := BitVec.ofNat 64
      (s.hdr[0].toNat + s.hdr[1].toNat * 2 ^ 8 + s.hdr[2].toNat * 2 ^ 16 + s.hdr[3].toNat * 2 ^ 24 +
       s.hdr[4].toNat * 2 ^ 32 + s.hdr[5].toNat * 2 ^ 40 + s.hdr[6].toNat * 2 ^ 48 + s.hdr[7].toNat * 2 ^ 56)
    seedv := true
    keyv := false }

/-- SeedExtract is the sum of four byte fields and ignores the other twelve bytes (rule R90). -/
def Obligations.SeedExtractSumsFourBytes : Prop :=
  (∀ h : Hdr, seedExtract h =
    ((h[9].setWidth 64 <<< 24) ||| (h[12].setWidth 64 <<< 16) ||| (h[2].setWidth 64 <<< 8) ||| h[0].setWidth 64)) ∧
  (∀ h : Hdr, (seedExtract h).toNat =
    h[9].toNat * 2 ^ 24 + h[12].toNat * 2 ^ 16 + h[2].toNat * 2 ^ 8 + h[0].toNat) ∧
  (∀ h : Hdr, (seedExtract h).extractLsb' 32 32 = 0) ∧
  (∀ h g : Hdr, h[0] = g[0] → h[2] = g[2] → h[9] = g[9] → h[12] = g[12] → seedExtract h = seedExtract g)

/-- The extracted seed in terms of the header fields A and B (rule R94). -/
def Obligations.SeedExtractFromHeaderFields : Prop :=
  ∀ h : Hdr,
    let a : DWord := word64 h 0
    let b : DWord := word64 h 1
    (∀ i : Fin 8, h[i.val] = a.extractLsb' (8 * i.val) 8 ∧ h[8 + i.val] = b.extractLsb' (8 * i.val) 8) ∧
    seedExtract h = (((b.extractLsb' 8 8).setWidth 64 <<< 24) ||| ((b.extractLsb' 32 8).setWidth 64 <<< 16) |||
      ((a.extractLsb' 16 8).setWidth 64 <<< 8) ||| (a.extractLsb' 0 8).setWidth 64)

/-- KEXP writes KeyExpand(SEED) into KEY, or raises NOSEED (rule R112). -/
def Obligations.KexpExpandsTheSeed : Prop :=
  (∀ s : State, s.err = true → exec .kexp s = .next s) ∧
  (∀ s : State, s.err = false → s.seedv = false →
    exec .kexp s = .next { s with err := true, errcode := some .noseed }) ∧
  (∀ s : State, s.err = false → s.seedv = true →
    exec .kexp s = .next { s with key := keyExpand s.seed, keyv := true })

/-- KEXP overwrites all 256 bytes: the result is a function of the seed alone (rule R110). -/
def Obligations.KeyScheduleForgetsTheOldStore : Prop :=
  (∀ (k l : Key) (s : DWord), keyExpandOver k s = keyExpandOver l s) ∧
  ∀ (k l : Key) (s : DWord) (m : Nat) (h : 8 * m + 8 ≤ 256) (x : Nat) (hx : x < 8 * m + 8),
    (expandInto k m s h)[x]'(by omega) = (expandInto l m s h)[x]'(by omega)

/-- After step 2, bytes 0 to 7 are s1, s0, s3, s2, s4, s7, s6, s5 (rule R104). -/
def Obligations.FirstWordsPermuteTheSeedBytes : Prop :=
  (∀ (k : Key) (s : DWord),
    let f := firstWords k s
    f[0] = byteAt s 1 ∧ f[1] = byteAt s 0 ∧ f[2] = byteAt s 3 ∧ f[3] = byteAt s 2 ∧
    f[4] = byteAt s 4 ∧ f[5] = byteAt s 7 ∧ f[6] = byteAt s 6 ∧ f[7] = byteAt s 5) ∧
  (∀ s : DWord,
    bswap32 (loSeed s) = byteAt s 0 ++ byteAt s 1 ++ byteAt s 2 ++ byteAt s 3 ∧
    rotr32 (bswap32 (loSeed s)) 16 = byteAt s 2 ++ byteAt s 3 ++ byteAt s 0 ++ byteAt s 1 ∧
    bswap32 (hiSeed s) = byteAt s 4 ++ byteAt s 5 ++ byteAt s 6 ++ byteAt s 7 ∧
    rotl32 (bswap32 (hiSeed s)) 8 = byteAt s 5 ++ byteAt s 6 ++ byteAt s 7 ++ byteAt s 4) ∧
  (∀ k : Key, word32 (firstWords k 0x0123456789ABCDEF) 0 = 0xAB89EFCD ∧
    word32 (firstWords k 0x0123456789ABCDEF) 1 = 0x45230167)

/-- Step 3 mixes bytes 0 to 7 in order, each from the byte before it, already updated (rule R105). -/
def Obligations.MixingChainsBytesZeroToSeven : Prop :=
  (∀ k : Key,
    let m := mixBytes k 7 (by omega)
    m[0] = k[0] + 0x45 ∧
    (∀ i : Fin 7, m[i.val + 1] = ((m[i.val] - 0x2C) + k[i.val + 1]) ^^^ (m[i.val] <<< 2) ^^^ 0x45) ∧
    ∀ x : Fin 256, 8 ≤ x.val → m[x] = k[x]) ∧
  ∀ k : Key, (∀ x : Fin 8, k[x.val] = 0) →
    let m := mixBytes k 7 (by omega)
    m[0] = 0x45 ∧ m[1] = 0x48 ∧ m[2] = 0x79 ∧ m[3] = 0xEC ∧ m[4] = 0x35 ∧ m[5] = 0x98 ∧ m[6] = 0x49 ∧ m[7] = 0x7C

/-- One iteration of step 4 writes only its own pair of words: five times the pair before it (derived:
41_key_schedule.md sections 1 and 2 (R106, R109)). -/
def Obligations.ExpansionWritesOnlyTheNewPair : Prop :=
  ∀ (k : Key) (it : Fin 31),
    key64 (expandStep k it.val) ⟨it.val + 1, by omega⟩ = 5 * key64 k ⟨it.val, by omega⟩ ∧
    ∀ x : Fin 256, x.val / 8 ≠ it.val + 1 → (expandStep k it.val)[x] = k[x]

/-- The closed form of step 4: K64[j] = 5^j times K64[0] (rule R109). -/
def Obligations.ExpandedKeyClosedForm : Prop :=
  ∀ (s : DWord) (k : Key),
    key64 (keyExpand s) 0 = key64 (mixBytes (firstWords k s) 7 (by omega)) 0 ∧
    (∀ j : Fin 32, key64 (keyExpand s) j = BitVec.ofNat 64 (5 ^ j.val) * key64 (keyExpand s) 0) ∧
    ∀ j : Fin 31, key64 (keyExpand s) ⟨j.val + 1, by omega⟩ = 5 * key64 (keyExpand s) ⟨j.val, by omega⟩

/-- A 32nd iteration into a 66-word store leaves words 0 to 63 as 31 iterations leave them (rule R107). -/
def Obligations.ThirtySecondIterationChangesNoKeyByte : Prop :=
  ∀ (long : Vector Byte 264) (k : Key) (s : DWord) (x : Fin 256),
    (expandInto long 32 s)[x.val] = (keyExpandOver k s)[x]

/-- The map from seed to KEY[0..7] is a bijection (rule R111). -/
def Obligations.SeedToFirstKeyWordIsABijection : Prop :=
  Function.Bijective (fun s : DWord => key64 (keyExpand s) 0) ∧
  ∀ s t : DWord, s ≠ t → ∃ x : Fin 8, (keyExpand s)[x.val] ≠ (keyExpand t)[x.val]

/-- Round in closed form, both directions (rule R125). -/
def Obligations.RoundClosedForm : Prop :=
  ∀ (k : Key) (blk : Word) (b : Block),
    let sum : Byte := roundKeyByte k blk 0 + roundKeyByte k blk 1 + roundKeyByte k blk 2 + roundKeyByte k blk 3 +
      roundKeyByte k blk 4 + roundKeyByte k blk 5 + roundKeyByte k blk 6 + roundKeyByte k blk 7
    let start : Byte := 0x45 ^^^ blk.extractLsb' 0 8
    ((roundDec k blk b)[0] = (((b[0] ^^^ start) + 0xC0) - sum) ∧
      ∀ o : Fin 7, (roundDec k blk b)[o.val + 1] = (((b[o.val + 1] ^^^ b[o.val]) + 0xC0) - sum)) ∧
    ((roundEnc k blk b)[0] = (start ^^^ ((b[0] + 0x40) + sum)) ∧
      ∀ o : Fin 7, (roundEnc k blk b)[o.val + 1] = ((roundEnc k blk b)[o.val] ^^^ ((b[o.val + 1] + 0x40) + sum))) ∧
    roundDec k blk (roundEnc k blk b) = b ∧ roundEnc k blk (roundDec k blk b) = b

/-- Each sub-step of the cipher undoes its counterpart, for any 256 key bytes (rule R132). -/
def Obligations.RoundAndFinalInvert : Prop :=
  ∀ (k : Key) (blk : Word) (b : Block),
    roundDec k blk (roundEnc k blk b) = b ∧ roundEnc k blk (roundDec k blk b) = b ∧
    finalDec k blk (finalEnc k blk b) = b ∧ finalEnc k blk (finalDec k blk b) = b ∧
    decBlock k blk (encBlock k blk b) = b ∧ encBlock k blk (decBlock k blk b) = b

/-- decrypt undoes encrypt on every buffer: the cipher's defining property (rule R120). -/
def Obligations.BufferRoundTrip : Prop :=
  (∀ (k : Key) (blk : Word) (b : Block), decBlock k blk (encBlock k blk b) = b ∧ encBlock k blk (decBlock k blk b) = b) ∧
  (∀ (k : Key) (buf : List Byte), buf.length % 8 = 0 →
    (encBuf k buf).length = buf.length ∧ decBuf k (encBuf k buf) = buf ∧ encBuf k (decBuf k buf) = buf) ∧
  ∀ (s : DWord) (buf : List Byte), buf.length % 8 = 0 → decBuf (keyExpand s) (encBuf (keyExpand s) buf) = buf

/-- Final in both directions, as numbers, and the order of Round and Final in a block (derived: 42_block_cipher.md
section 3 (R127, R128, R129), 42_block_cipher.md section 1 (R122), 42_block_cipher.md section 4 (R130, R131)). -/
def Obligations.FinalMixesWithBlockAndKeyWord : Prop :=
  ∀ (key : Key) (blk : Word) (b : Block),
    let e : DWord := key64 key ⟨blk.toNat % 32, Nat.mod_lt _ (by decide)⟩
    let u : DWord := e ^^^ bkey blk ^^^ (le64 b - e)
    le64 (finalDec key blk b) = u.extractLsb' 0 32 ++ u.extractLsb' 32 32 ∧
    le64 (finalEnc key blk b) = (e ^^^ bkey blk ^^^ ((le64 b).extractLsb' 0 32 ++ (le64 b).extractLsb' 32 32)) + e ∧
    decBlock key blk b = finalDec key blk (roundDec key blk b) ∧
    encBlock key blk b = roundEnc key blk (finalEnc key blk b)

/-- BKey by R126's formula for every block index, its short form below 2^10, where the two readings agree, and
R126's examples (derived: 42_block_cipher.md section 3 (R126), 95_test_vectors.md section 4). -/
def Obligations.BlockKeyValues : Prop :=
  (∀ blk : Word,
    let index32 : Nat := blk.toNat * 8 % 2 ^ 32
    (bkey blk).toNat = ((blk.toNat * 2 ^ 23 ||| index32 * 2 ^ 10 % 2 ^ 32 ||| index32 ||| blk.toNat * 2 ^ 33 % 2 ^ 64) +
      0xA1652347) % 2 ^ 64) ∧
  (∀ blk : Word, blk.toNat < 2 ^ 10 → bkey blk = BitVec.ofNat 64 (blk.toNat * 0x200802008 + 0xA1652347)) ∧
  (∀ blk : Word, blk.toNat < 2 ^ 19 → bkeyOf (indexTermWide blk) blk = bkey blk) ∧
  bkey 0 = 0x00000000A1652347 ∧ bkey 1 = 0x00000002A1E5434F ∧ bkey 32 = 0x00000040B1692447 ∧
  bkey 0x80000 = 0x00100400A1A52347 ∧ bkeyOf (indexTermWide 0x80000) 0x80000 = 0x00100401A1A52347

/-- byte(blk) is the low 8 bits: the initial xorState repeats with period 256 (rule R135). -/
def Obligations.InitialXorStateHasPeriod256 : Prop :=
  (∀ blk : Word, xorStart blk = 0x45 ^^^ BitVec.ofNat 8 (blk.toNat % 256)) ∧
  (∀ blk : Word, xorStart (blk + 256) = xorStart blk) ∧
  xorStart 0 = 0x45 ∧ xorStart 256 = 0x45 ∧ xorStart 255 = 0xBA

/-- The eight key bytes Round uses are the bytes of the word Final uses (rule R59). -/
def Obligations.RoundUsesTheBytesOfTheFinalWord : Prop :=
  ∀ (k : Key) (blk : Word) (i : Fin 8),
    (blk.toNat * 8 + i.val) % 256 = 8 * (blk.toNat % 32) + i.val ∧
    roundKeyByte k blk i.val = k[(blk.toNat * 8 + i.val) % 256]'(Nat.mod_lt _ (by decide)) ∧
    roundKeyByte k blk i.val = byteAt (ekey k blk) i.val

/-- A block's ciphertext depends on that block alone, and inside it only upward (rule R133). -/
def Obligations.BlocksAreIndependent : Prop :=
  (∀ (k : Key) (x y : List Byte) (j : Nat), x.length = y.length → x.length % 8 = 0 →
    (x.drop (8 * j)).take 8 = (y.drop (8 * j)).take 8 →
    ((encBuf k x).drop (8 * j)).take 8 = ((encBuf k y).drop (8 * j)).take 8 ∧
    ((decBuf k x).drop (8 * j)).take 8 = ((decBuf k y).drop (8 * j)).take 8) ∧
  (∀ (k : Key) (blk : Word) (b d : Block) (o : Fin 8),
    (∀ i : Fin 8, i ≤ o → (swapHalves b)[i] = (swapHalves d)[i]) → (encBlock k blk b)[o] = (encBlock k blk d)[o]) ∧
  (∀ (k : Key) (blk : Word) (b d : Block), b[4] = d[4] → b[5] = d[5] → b[6] = d[6] → b[7] = d[7] →
    ∀ o : Fin 4, (encBlock k blk b)[o.val] = (encBlock k blk d)[o.val])

/-- Block j of DecBuf and EncBuf is the block function at index j (derived: 42_block_cipher.md section 4 (R134)).
That the block index is taken modulo 2^32 in a buffer of 2^35 bytes or more is the model's choice (log 21, DESIGN
CHOICE). -/
def Obligations.BufferBlocksInIndexOrder : Prop :=
  ∀ (k : Key) (buf : List Byte), buf.length % 8 = 0 →
    (∀ (j : Nat) (b : Block), 8 * j < buf.length → (buf.drop (8 * j)).take 8 = b.toList →
      ((decBuf k buf).drop (8 * j)).take 8 = (decBlock k (BitVec.ofNat 32 j) b).toList ∧
      ((encBuf k buf).drop (8 * j)).take 8 = (encBlock k (BitVec.ofNat 32 j) b).toList) ∧
    (buf = [] → decBuf k buf = [] ∧ encBuf k buf = [])

/-- ENC: the checks in order, then EncBuf in place on the first LEN bytes (rule R137). -/
def Obligations.EncEncryptsTheBuffer : Prop :=
  (∀ s : State, s.err = true → exec .enc s = .next s) ∧
  (∀ s : State, s.err = false → s.keyv = false → exec .enc s = .next { s with err := true, errcode := some .nokey }) ∧
  (∀ s : State, s.err = false → s.keyv = true → s.len.toNat % 8 ≠ 0 ∨ s.bufcap.bytes < s.len.toNat →
    exec .enc s = .next { s with err := true, errcode := some .malformed }) ∧
  (∀ s : State, CipherReady s → ∃ t, exec .enc s = .next t ∧ PassDone encBuf s t)

/-- DEC: the checks in order, then DecBuf in place on the first LEN bytes (rule R136). -/
def Obligations.DecDecryptsTheBuffer : Prop :=
  (∀ s : State, s.err = true → exec .dec s = .next s) ∧
  (∀ s : State, s.err = false → s.keyv = false → exec .dec s = .next { s with err := true, errcode := some .nokey }) ∧
  (∀ s : State, s.err = false → s.keyv = true → s.len.toNat % 8 ≠ 0 ∨ s.bufcap.bytes < s.len.toNat →
    exec .dec s = .next { s with err := true, errcode := some .malformed }) ∧
  (∀ s : State, CipherReady s → ∃ t, exec .dec s = .next t ∧ PassDone decBuf s t)

/-- The frame of ENC and DEC over memory (derived: 10_state.md sections 1 and 5 (R29, R41), 20_memory.md section 1
(R50)). -/
def Obligations.CipherCommandsTouchOnlyThePayload : Prop :=
  ∀ (i : Instr), i = .enc ∨ i = .dec →
    (∀ (s t : State) (a : Nat), exec i s = .next t → s.len.toNat ≤ a → t.bufByte a = s.bufByte a) ∧
    ∀ (s : State) (m : List Host.Cell) (t u : State),
      (∀ a, a < s.len.toNat → ({ s with buf := m } : State).bufByte a = s.bufByte a) →
      exec i s = .next t → exec i { s with buf := m } = .next u →
      ∀ a, a < s.len.toNat → u.bufByte a = t.bufByte a

/-- Encrypting and decrypting through the commands restores the buffer, seeding again in between (derived:
30_encoding.md section 5 (R79), 42_block_cipher.md section 1 (R120), 95_test_vectors.md S1). -/
def Obligations.RoundTripThroughTheCommands : Prop :=
  ∀ (s : State) (seedCmd : Instr), seedCmd = .seedx ∨ seedCmd = .seedld →
    s.err = false → s.len.toNat % 8 = 0 → s.len.toNat ≤ s.bufcap.bytes →
    ∃ a b c d e f, exec seedCmd s = .next a ∧ exec .kexp a = .next b ∧ exec .enc b = .next c ∧
      exec seedCmd c = .next d ∧ exec .kexp d = .next e ∧ exec .dec e = .next f ∧
      f.err = false ∧ ∀ x, f.bufByte x = s.bufByte x

/-- NOP changes no state, with ERR = 0 or ERR = 1 alike (rule R150). -/
def Obligations.NopChangesNothing : Prop :=
  ∀ s : State, exec .nop s = .next s

/-- CLR discards seed and key, clears BLK and the error register, and nothing else (rule R151). -/
def Obligations.ClrDiscardsAndAcknowledges : Prop :=
  ∀ s : State, ∃ (sd : DWord) (ky : Key) (d : Nat), exec .clr s = .next { s with
    seed := sd, seedv := false, key := ky, keyv := false, blk := 0, err := false, errcode := none, draws := d }

/-- A faulting command changes only ERR and ERRCODE (rule R186). -/
def Obligations.FaultEntryRecordsOnlyTheCode : Prop :=
  (∀ (i : Instr) (s t : State), s.err = false → exec i s = .next t → t.err = true →
    ∃ f, t = { s with err := true, errcode := some f }) ∧
  (∀ s : State, s.err = false → illegalCommand s = { s with err := true, errcode := some .illcmd })

/-- What no command changes, and the frame of each command (derived: 10_state.md sections 1 and 5 (R21, R26, R27,
R29, R41)). -/
def Obligations.CommandsKeepHostRegisters : Prop :=
  ∀ (i : Instr) (s t : State), exec i s = .next t →
    t.hdr = s.hdr ∧ t.len = s.len ∧ t.bufcap = s.bufcap ∧ t.pending = s.pending ∧ t.replies = s.replies ∧
    t.resets = s.resets ∧
    (i ≠ .enc → i ≠ .dec → ∀ a, t.bufByte a = s.bufByte a) ∧
    (i ≠ .enc → i ≠ .dec → i ≠ .clr → t.blk = s.blk) ∧
    (i = .nop ∨ i = .kexp → t.seed = s.seed ∧ t.seedv = s.seedv) ∧
    (i = .nop ∨ i = .seedx ∨ i = .seedld → t.key = s.key) ∧
    (i = .nop → t.keyv = s.keyv) ∧
    (i ≠ .clr → s.err = true → t.err = true ∧ t.errcode = s.errcode)

/-- The order of commands is forced by the validity flags: the table of R213 (rule R213). -/
def Obligations.PhasesFollowTheTable : Prop :=
  (∀ (i : Instr) (s : State), s.err = false → s.errcode = none → phase s ≠ .unreachable →
    ∃ t, exec i s = .next t ∧ phase t = (phaseTable (phase s) i (malformedLength s)).1 ∧
      t.errcode = (phaseTable (phase s) i (malformedLength s)).2 ∧ t.err = t.errcode.isSome) ∧
  (∀ s : State, s.err = false → phase (illegalCommand s) = phase s ∧ (illegalCommand s).err = true ∧
    (illegalCommand s).errcode = some .illcmd) ∧
  (∀ (i : Instr) (s : State), s.err = true → i ≠ .clr → exec i s = .next s) ∧
  (∀ s : State, s.err = true → illegalCommand s = s) ∧
  (∀ s : State, ∃ t, exec .clr s = .next t ∧ phase t = .idle ∧ t.err = false) ∧
  (∀ s t : State, phase s ≠ .unreachable → step s = .next t → phase t ≠ .unreachable)

/-- No command's result depends on the BLK left by an earlier one (derived: 10_state.md section 1 (R26),
92_eei_decisions.md D29). That the discard draws the same free values in both states is the model's choice (log 4,
DESIGN CHOICE). -/
def Obligations.BlkIsNoInput : Prop :=
  ∀ (i : Instr) (s t : State) (v : Word), exec i s = .next t →
    (∃ w, exec i { s with blk := v } = .next { t with blk := w }) ∧
    (i = .clr ∨ ((i = .enc ∨ i = .dec) ∧ CipherReady s) → exec i { s with blk := v } = .next t)

/-- The bits of an invalid SEED or KEY never influence anything the host can see (derived: 10_state.md sections 1
and 3 (R22, R24, R34), 93_implementation_defined.md U1, U4). That a reset, as an input (log 9), leaves the same
unknown bytes in both states rests on logs 2 and 3 (DESIGN CHOICE, unsafe), and that both draw the same free values
on logs 4 and 5 (DESIGN CHOICE): the model's choices, not the spec's. -/
def Obligations.UndefinedBitsNeverMatter : Prop :=
  ∀ s s' t : State, AgreeOnDefined s s' → step s = .next t → ∃ t', step s' = .next t' ∧ AgreeOnDefined t t'

/-- Every step keeps the invariant of the machine (derived: 10_state.md section 1 (R25, R26, R29, R30),
60_exceptions.md section 2 (R186)). The canonical form of the memory is the model's choice (log 3). -/
def Obligations.StepKeepsTheInvariant : Prop :=
  ∀ s t : State, Inv s → step s = .next t → Inv t

/-- The reset state meets the invariant of the machine (derived: 10_state.md section 4 (R40),
70_reset_and_hazards.md section 1 (R210)). -/
def Obligations.ResetMeetsTheInvariant : Prop :=
  Inv State.reset

/-- After reset the flags, LEN, BLK and the error register are 0 and STATUS reads 0 (derived: 10_state.md section 4
(R40), 70_reset_and_hazards.md section 1 (R210)). That reset is an input, and what it keeps of the model's own
fields, is the model's choice (log 9). -/
def Obligations.ResetClearsTheFlags : Prop :=
  (State.reset.seedv = false ∧ State.reset.keyv = false ∧ State.reset.err = false ∧ State.reset.errcode = none ∧
    State.reset.len = 0 ∧ State.reset.blk = 0 ∧ statusWord State.reset = 0) ∧
  ∀ (s : State) (rest : List Input), s.pending = .reset :: rest →
    ∃ t, step s = .next t ∧ t.seedv = false ∧ t.keyv = false ∧ t.err = false ∧ t.errcode = none ∧ t.len = 0 ∧
      t.blk = 0 ∧ statusWord t = 0 ∧ t.bufcap = s.bufcap ∧ t.pending = rest ∧ t.replies = s.replies

/-- BUFCAP is a multiple of 8 from 8 to 2^32 - 8, and no step changes it (derived: 00_scope.md section 4 (R10),
93_implementation_defined.md U13). That the capacity is a field of the state is the model's choice (log 1). -/
def Obligations.CapacityIsLegalAndFixed : Prop :=
  (∀ c : BufCap, c.bytes % 8 = 0 ∧ 8 ≤ c.bytes ∧ c.bytes ≤ 2 ^ 32 - 8) ∧
  (∀ n, n % 8 = 0 → 8 ≤ n → n ≤ 2 ^ 32 - 8 → ∃ c : BufCap, c.bytes = n) ∧
  (∀ s t : State, step s = .next t → t.bufcap = s.bufcap)

/-- A record not tagged encrypted takes the no-op branch of the decrypt path (derived: 44_container_host.md section
1 (R161, R162, R164)). For 32 bytes or more this is R164; that a record of 24 to 31 bytes, whose header is
incomplete, has its tag tested is the model's choice (log 20, DESIGN CHOICE). -/
def Obligations.UnencryptedContainerIsLeftAlone : Prop :=
  ∀ (bodyOff : Nat) (r : List Byte), 24 ≤ r.length → (parseHeader (headBytes 32 r)).tag ≠ 0x1DE03478 →
    containerDecrypt bodyOff r = .ok r ∧ containerDecryptInputs bodyOff r = .ok []

/-- Decrypting an encrypted script payload restores it, and the seed prefix is never ciphered (derived:
44_container_host.md section 2 (R168, R169), 42_block_cipher.md section 1 (R120)). That the host's functions take a
payload of any length, beyond `BUFCAP` and `LEN` too, is the model's choice (logs 21, 22, DESIGN CHOICE). -/
def Obligations.ScriptRoundTrip : Prop :=
  ∀ p : List Byte, 8 ≤ p.length → (p.length - 8) % 8 = 0 →
    ∃ c, scriptEncrypt p = .ok c ∧ c.length = p.length ∧ c.take 8 = p.take 8 ∧ scriptDecrypt c = .ok p
end

