-- ==== Sys2Proof/Laws/Bits.lean ====
section
/-! SUPPORT. The views of a byte store (`20_memory.md` rules R51, R52): joining and splitting undo each other, and a
write through the 32-bit view is read back through it and leaves every other word alone. -/

namespace Sys2Proof.Machine

/-! ### Four bytes and a word -/

/-- Bit `i` of a joined word is bit `i mod 8` of byte `i / 8`. -/
theorem getLsbD_join32 (b0 b1 b2 b3 : Byte) (i : Nat) :
    (join32 b0 b1 b2 b3).getLsbD i =
      if i < 8 then b0.getLsbD i else if i < 16 then b1.getLsbD (i - 8)
      else if i < 24 then b2.getLsbD (i - 16) else b3.getLsbD (i - 24) := by
  have h : (join32 b0 b1 b2 b3).getLsbD i = BitVec.getLsbD (w := 8 + 8 + 8 + 8) (b3 ++ b2 ++ b1 ++ b0) i := rfl
  rw [h]
  simp only [BitVec.getLsbD_append, Nat.sub_sub]
  repeat' split
  all_goals first | rfl | omega

theorem getLsbD_byteAt {w : Nat} (v : BitVec w) (k i : Nat) : (byteAt v k).getLsbD i = (decide (i < 8) && v.getLsbD (8 * k + i)) := by
  simp [byteAt]

/-- A word is its four bytes joined. -/
@[simp] theorem join32_byteAt (v : Word) : join32 (byteAt v 0) (byteAt v 1) (byteAt v 2) (byteAt v 3) = v := by
  apply BitVec.eq_of_getLsbD_eq
  intro i hi
  simp only [getLsbD_join32, getLsbD_byteAt]
  repeat' split
  · simp [*]
  · have h : 8 * 1 + (i - 8) = i := by omega
    simp [h]; omega
  · have h : 8 * 2 + (i - 16) = i := by omega
    simp [h]; omega
  · have h : 8 * 3 + (i - 24) = i := by omega
    simp [h]; omega

@[simp] theorem byteAt_join32_0 (b0 b1 b2 b3 : Byte) : byteAt (join32 b0 b1 b2 b3) 0 = b0 := by
  apply BitVec.eq_of_getLsbD_eq
  intro i hi
  rw [getLsbD_byteAt, getLsbD_join32, if_pos (by omega)]
  simp [hi]

@[simp] theorem byteAt_join32_1 (b0 b1 b2 b3 : Byte) : byteAt (join32 b0 b1 b2 b3) 1 = b1 := by
  apply BitVec.eq_of_getLsbD_eq
  intro i hi
  rw [getLsbD_byteAt, getLsbD_join32, if_neg (by omega), if_pos (by omega)]
  simp [hi]

@[simp] theorem byteAt_join32_2 (b0 b1 b2 b3 : Byte) : byteAt (join32 b0 b1 b2 b3) 2 = b2 := by
  apply BitVec.eq_of_getLsbD_eq
  intro i hi
  rw [getLsbD_byteAt, getLsbD_join32, if_neg (by omega), if_neg (by omega), if_pos (by omega)]
  simp [hi]

@[simp] theorem byteAt_join32_3 (b0 b1 b2 b3 : Byte) : byteAt (join32 b0 b1 b2 b3) 3 = b3 := by
  apply BitVec.eq_of_getLsbD_eq
  intro i hi
  rw [getLsbD_byteAt, getLsbD_join32, if_neg (by omega), if_neg (by omega), if_neg (by omega)]
  simp [hi]

@[simp] theorem wordOfBytes_wordBytes (v : Word) : wordOfBytes (wordBytes v) = some v := by
  simp [wordOfBytes, wordBytes]

/-! ### Two words and a double word -/

@[simp] theorem low32_join64 (lo hi : Word) : low32 (join64 lo hi) = lo := by
  apply BitVec.eq_of_getLsbD_eq
  intro i h
  have e : (join64 lo hi).getLsbD i = BitVec.getLsbD (w := 32 + 32) (hi ++ lo) i := rfl
  rw [BitVec.getLsbD_append, if_pos h] at e
  simpa [low32, h] using e

@[simp] theorem high32_join64 (lo hi : Word) : high32 (join64 lo hi) = hi := by
  apply BitVec.eq_of_getLsbD_eq
  intro i h
  have e : (join64 lo hi).getLsbD (32 + i) = BitVec.getLsbD (w := 32 + 32) (hi ++ lo) (32 + i) := rfl
  rw [BitVec.getLsbD_append, if_neg (by omega)] at e
  simpa [high32, h] using e

@[simp] theorem join64_low32_high32 (v : DWord) : join64 (low32 v) (high32 v) = v := by
  apply BitVec.eq_of_getLsbD_eq
  intro i h
  have e : (join64 (low32 v) (high32 v)).getLsbD i = BitVec.getLsbD (w := 32 + 32) (high32 v ++ low32 v) i := rfl
  rw [e, BitVec.getLsbD_append]
  split
  · next h' => simp [low32, h']
  · next h' =>
    have : 32 + (i - 32) = i := by omega
    simp [high32, this]; omega

theorem byteAt_low32 (v : DWord) {k : Nat} (h : k < 4) : byteAt (low32 v) k = byteAt v k := by
  apply BitVec.eq_of_getLsbD_eq
  intro i hi
  have : 8 * k + i < 32 := by omega
  simp [getLsbD_byteAt, low32, this]

theorem byteAt_high32 (v : DWord) {k : Nat} (h : k < 4) : byteAt (high32 v) k = byteAt v (4 + k) := by
  apply BitVec.eq_of_getLsbD_eq
  intro i hi
  have h1 : 8 * k + i < 32 := by omega
  have h2 : 32 + (8 * k + i) = 8 * (4 + k) + i := by omega
  simp [getLsbD_byteAt, high32, h1, h2]

/-! ### Blocks -/

/-- Two blocks are equal when their eight bytes are. -/
theorem block_ext {b d : Block} (h0 : b[0] = d[0]) (h1 : b[1] = d[1]) (h2 : b[2] = d[2]) (h3 : b[3] = d[3])
    (h4 : b[4] = d[4]) (h5 : b[5] = d[5]) (h6 : b[6] = d[6]) (h7 : b[7] = d[7]) : b = d := by
  refine Vector.ext fun i hi => ?_
  obtain rfl | rfl | rfl | rfl | rfl | rfl | rfl | rfl :
      i = 0 ∨ i = 1 ∨ i = 2 ∨ i = 3 ∨ i = 4 ∨ i = 5 ∨ i = 6 ∨ i = 7 := by omega
  all_goals assumption

/-- Rule R51: "`bytes64(v)` = the 8-byte block `b` with `le64(b) = v`". -/
@[simp] theorem le64_bytes64 (v : DWord) : le64 (bytes64 v) = v := by
  show join64 (join32 (byteAt v 0) (byteAt v 1) (byteAt v 2) (byteAt v 3))
    (join32 (byteAt v 4) (byteAt v 5) (byteAt v 6) (byteAt v 7)) = v
  rw [← byteAt_low32 v (k := 0) (by omega), ← byteAt_low32 v (k := 1) (by omega), ← byteAt_low32 v (k := 2) (by omega),
    ← byteAt_low32 v (k := 3) (by omega), ← byteAt_high32 v (k := 0) (by omega), ← byteAt_high32 v (k := 1) (by omega),
    ← byteAt_high32 v (k := 2) (by omega), ← byteAt_high32 v (k := 3) (by omega), join32_byteAt, join32_byteAt,
    join64_low32_high32]

@[simp] theorem bytes64_le64 (b : Block) : bytes64 (le64 b) = b := by
  have hl : low32 (le64 b) = join32 b[0] b[1] b[2] b[3] := low32_join64 _ _
  have hh : high32 (le64 b) = join32 b[4] b[5] b[6] b[7] := high32_join64 _ _
  apply block_ext
  · exact (byteAt_low32 _ (by omega)).symm.trans (by rw [hl, byteAt_join32_0])
  · exact (byteAt_low32 _ (by omega)).symm.trans (by rw [hl, byteAt_join32_1])
  · exact (byteAt_low32 _ (by omega)).symm.trans (by rw [hl, byteAt_join32_2])
  · exact (byteAt_low32 _ (by omega)).symm.trans (by rw [hl, byteAt_join32_3])
  · exact (byteAt_high32 (le64 b) (k := 0) (by omega)).symm.trans (by rw [hh, byteAt_join32_0])
  · exact (byteAt_high32 (le64 b) (k := 1) (by omega)).symm.trans (by rw [hh, byteAt_join32_1])
  · exact (byteAt_high32 (le64 b) (k := 2) (by omega)).symm.trans (by rw [hh, byteAt_join32_2])
  · exact (byteAt_high32 (le64 b) (k := 3) (by omega)).symm.trans (by rw [hh, byteAt_join32_3])

@[simp] theorem swapHalves_swapHalves (b : Block) : swapHalves (swapHalves b) = b := by
  apply block_ext <;> rfl

/-! ### The 32-bit view of a store -/

/-- What each byte of the store is after a write through the 32-bit view. -/
theorem getElem_setWord32 {n : Nat} (k : Vector Byte n) (i : Nat) (v : Word) (h : 4 * i + 4 ≤ n) {x : Nat} (hx : x < n) :
    (setWord32 k i v h)[x] = if x / 4 = i then byteAt v (x % 4) else k[x] := by
  simp only [setWord32, Vector.getElem_set]
  split
  · rw [if_pos (by omega)]; congr 1; omega
  split
  · rw [if_pos (by omega)]; congr 1; omega
  split
  · rw [if_pos (by omega)]; congr 1; omega
  split
  · rw [if_pos (by omega)]; congr 1; omega
  · rw [if_neg (by omega)]

@[simp] theorem word32_setWord32_same {n : Nat} (k : Vector Byte n) (i : Nat) (v : Word) (h : 4 * i + 4 ≤ n) :
    word32 (setWord32 k i v h) i h = v := by
  simp only [word32, getElem_setWord32]
  rw [if_pos (by omega), if_pos (by omega), if_pos (by omega), if_pos (by omega)]
  have h0 : 4 * i % 4 = 0 := by omega
  have h1 : (4 * i + 1) % 4 = 1 := by omega
  have h2 : (4 * i + 2) % 4 = 2 := by omega
  have h3 : (4 * i + 3) % 4 = 3 := by omega
  rw [h0, h1, h2, h3, join32_byteAt]

theorem word32_setWord32_ne {n : Nat} (k : Vector Byte n) {i j : Nat} (v : Word) (h : 4 * i + 4 ≤ n) (hj : 4 * j + 4 ≤ n)
    (hne : j ≠ i) : word32 (setWord32 k i v h) j hj = word32 k j hj := by
  simp only [word32, getElem_setWord32]
  rw [if_neg (by omega), if_neg (by omega), if_neg (by omega), if_neg (by omega)]

/-- Two stores whose 32-bit words agree have the same bytes there. -/
theorem getElem_of_word32_eq {n m : Nat} {k : Vector Byte n} {l : Vector Byte m} {i : Nat} {hk : 4 * i + 4 ≤ n}
    {hl : 4 * i + 4 ≤ m} (h : word32 k i hk = word32 l i hl) {r : Nat} (hr : r < 4) : k[4 * i + r] = l[4 * i + r] := by
  have e (x : Nat) : byteAt (word32 k i hk) x = byteAt (word32 l i hl) x := by rw [h]
  have e0 := e 0
  have e1 := e 1
  have e2 := e 2
  have e3 := e 3
  simp only [word32, byteAt_join32_0, byteAt_join32_1, byteAt_join32_2, byteAt_join32_3] at e0 e1 e2 e3
  obtain rfl | rfl | rfl | rfl : r = 0 ∨ r = 1 ∨ r = 2 ∨ r = 3 := by omega
  all_goals assumption

end Sys2Proof.Machine
end

