-- ==== Sys2Proof/Laws/State.lean ====
section
/-! SUPPORT. The state updates, field by field: what each sets and what it leaves, true by unfolding and tagged for
`simp`, so that no later proof unfolds a record update. The updates that repeat a byte write leave every other field. -/

namespace Sys2Proof.Machine

variable (s : State)

/-! ### State.setBufByte -/

@[simp] theorem State.setBufByte_hdr (a : Nat) (v : Byte) : (s.setBufByte a v).hdr = s.hdr := rfl
@[simp] theorem State.setBufByte_seed (a : Nat) (v : Byte) : (s.setBufByte a v).seed = s.seed := rfl
@[simp] theorem State.setBufByte_seedv (a : Nat) (v : Byte) : (s.setBufByte a v).seedv = s.seedv := rfl
@[simp] theorem State.setBufByte_key (a : Nat) (v : Byte) : (s.setBufByte a v).key = s.key := rfl
@[simp] theorem State.setBufByte_keyv (a : Nat) (v : Byte) : (s.setBufByte a v).keyv = s.keyv := rfl
@[simp] theorem State.setBufByte_len (a : Nat) (v : Byte) : (s.setBufByte a v).len = s.len := rfl
@[simp] theorem State.setBufByte_blk (a : Nat) (v : Byte) : (s.setBufByte a v).blk = s.blk := rfl
@[simp] theorem State.setBufByte_buf (a : Nat) (v : Byte) : (s.setBufByte a v).buf = Memory.write s.buf a v := rfl
@[simp] theorem State.setBufByte_err (a : Nat) (v : Byte) : (s.setBufByte a v).err = s.err := rfl
@[simp] theorem State.setBufByte_errcode (a : Nat) (v : Byte) : (s.setBufByte a v).errcode = s.errcode := rfl
@[simp] theorem State.setBufByte_bufcap (a : Nat) (v : Byte) : (s.setBufByte a v).bufcap = s.bufcap := rfl
@[simp] theorem State.setBufByte_pending (a : Nat) (v : Byte) : (s.setBufByte a v).pending = s.pending := rfl
@[simp] theorem State.setBufByte_replies (a : Nat) (v : Byte) : (s.setBufByte a v).replies = s.replies := rfl
@[simp] theorem State.setBufByte_resets (a : Nat) (v : Byte) : (s.setBufByte a v).resets = s.resets := rfl
@[simp] theorem State.setBufByte_draws (a : Nat) (v : Byte) : (s.setBufByte a v).draws = s.draws := rfl

/-! ### State.setHdrByte -/

@[simp] theorem State.setHdrByte_hdr (i : Nat) (v : Byte) : (s.setHdrByte i v).hdr = s.hdr.setIfInBounds i v := rfl
@[simp] theorem State.setHdrByte_seed (i : Nat) (v : Byte) : (s.setHdrByte i v).seed = s.seed := rfl
@[simp] theorem State.setHdrByte_seedv (i : Nat) (v : Byte) : (s.setHdrByte i v).seedv = s.seedv := rfl
@[simp] theorem State.setHdrByte_key (i : Nat) (v : Byte) : (s.setHdrByte i v).key = s.key := rfl
@[simp] theorem State.setHdrByte_keyv (i : Nat) (v : Byte) : (s.setHdrByte i v).keyv = s.keyv := rfl
@[simp] theorem State.setHdrByte_len (i : Nat) (v : Byte) : (s.setHdrByte i v).len = s.len := rfl
@[simp] theorem State.setHdrByte_blk (i : Nat) (v : Byte) : (s.setHdrByte i v).blk = s.blk := rfl
@[simp] theorem State.setHdrByte_buf (i : Nat) (v : Byte) : (s.setHdrByte i v).buf = s.buf := rfl
@[simp] theorem State.setHdrByte_err (i : Nat) (v : Byte) : (s.setHdrByte i v).err = s.err := rfl
@[simp] theorem State.setHdrByte_errcode (i : Nat) (v : Byte) : (s.setHdrByte i v).errcode = s.errcode := rfl
@[simp] theorem State.setHdrByte_bufcap (i : Nat) (v : Byte) : (s.setHdrByte i v).bufcap = s.bufcap := rfl
@[simp] theorem State.setHdrByte_pending (i : Nat) (v : Byte) : (s.setHdrByte i v).pending = s.pending := rfl
@[simp] theorem State.setHdrByte_replies (i : Nat) (v : Byte) : (s.setHdrByte i v).replies = s.replies := rfl
@[simp] theorem State.setHdrByte_resets (i : Nat) (v : Byte) : (s.setHdrByte i v).resets = s.resets := rfl
@[simp] theorem State.setHdrByte_draws (i : Nat) (v : Byte) : (s.setHdrByte i v).draws = s.draws := rfl

/-! ### raise -/

@[simp] theorem raise_hdr (f : CmdFault) : (raise f s).hdr = s.hdr := rfl
@[simp] theorem raise_seed (f : CmdFault) : (raise f s).seed = s.seed := rfl
@[simp] theorem raise_seedv (f : CmdFault) : (raise f s).seedv = s.seedv := rfl
@[simp] theorem raise_key (f : CmdFault) : (raise f s).key = s.key := rfl
@[simp] theorem raise_keyv (f : CmdFault) : (raise f s).keyv = s.keyv := rfl
@[simp] theorem raise_len (f : CmdFault) : (raise f s).len = s.len := rfl
@[simp] theorem raise_blk (f : CmdFault) : (raise f s).blk = s.blk := rfl
@[simp] theorem raise_buf (f : CmdFault) : (raise f s).buf = s.buf := rfl
@[simp] theorem raise_err (f : CmdFault) : (raise f s).err = true := rfl
@[simp] theorem raise_errcode (f : CmdFault) : (raise f s).errcode = some f := rfl
@[simp] theorem raise_bufcap (f : CmdFault) : (raise f s).bufcap = s.bufcap := rfl
@[simp] theorem raise_pending (f : CmdFault) : (raise f s).pending = s.pending := rfl
@[simp] theorem raise_replies (f : CmdFault) : (raise f s).replies = s.replies := rfl
@[simp] theorem raise_resets (f : CmdFault) : (raise f s).resets = s.resets := rfl
@[simp] theorem raise_draws (f : CmdFault) : (raise f s).draws = s.draws := rfl

/-! ### ackFault -/

@[simp] theorem ackFault_hdr : (ackFault s).hdr = s.hdr := rfl
@[simp] theorem ackFault_seed : (ackFault s).seed = s.seed := rfl
@[simp] theorem ackFault_seedv : (ackFault s).seedv = s.seedv := rfl
@[simp] theorem ackFault_key : (ackFault s).key = s.key := rfl
@[simp] theorem ackFault_keyv : (ackFault s).keyv = s.keyv := rfl
@[simp] theorem ackFault_len : (ackFault s).len = s.len := rfl
@[simp] theorem ackFault_blk : (ackFault s).blk = s.blk := rfl
@[simp] theorem ackFault_buf : (ackFault s).buf = s.buf := rfl
@[simp] theorem ackFault_err : (ackFault s).err = false := rfl
@[simp] theorem ackFault_errcode : (ackFault s).errcode = none := rfl
@[simp] theorem ackFault_bufcap : (ackFault s).bufcap = s.bufcap := rfl
@[simp] theorem ackFault_pending : (ackFault s).pending = s.pending := rfl
@[simp] theorem ackFault_replies : (ackFault s).replies = s.replies := rfl
@[simp] theorem ackFault_resets : (ackFault s).resets = s.resets := rfl
@[simp] theorem ackFault_draws : (ackFault s).draws = s.draws := rfl

/-! ### discard -/

@[simp] theorem discard_hdr : (discard s).hdr = s.hdr := rfl
@[simp] theorem discard_seed : (discard s).seed = Config.freeSeed s.draws := rfl
@[simp] theorem discard_seedv : (discard s).seedv = false := rfl
@[simp] theorem discard_key : (discard s).key = Vector.ofFn fun i => Config.freeKey s.draws i := rfl
@[simp] theorem discard_keyv : (discard s).keyv = false := rfl
@[simp] theorem discard_len : (discard s).len = s.len := rfl
@[simp] theorem discard_blk : (discard s).blk = s.blk := rfl
@[simp] theorem discard_buf : (discard s).buf = s.buf := rfl
@[simp] theorem discard_err : (discard s).err = s.err := rfl
@[simp] theorem discard_errcode : (discard s).errcode = s.errcode := rfl
@[simp] theorem discard_bufcap : (discard s).bufcap = s.bufcap := rfl
@[simp] theorem discard_pending : (discard s).pending = s.pending := rfl
@[simp] theorem discard_replies : (discard s).replies = s.replies := rfl
@[simp] theorem discard_resets : (discard s).resets = s.resets := rfl
@[simp] theorem discard_draws : (discard s).draws = s.draws + 1 := rfl

/-! ### setBlk -/

@[simp] theorem setBlk_hdr (v : Word) : (setBlk v s).hdr = s.hdr := rfl
@[simp] theorem setBlk_seed (v : Word) : (setBlk v s).seed = s.seed := rfl
@[simp] theorem setBlk_seedv (v : Word) : (setBlk v s).seedv = s.seedv := rfl
@[simp] theorem setBlk_key (v : Word) : (setBlk v s).key = s.key := rfl
@[simp] theorem setBlk_keyv (v : Word) : (setBlk v s).keyv = s.keyv := rfl
@[simp] theorem setBlk_len (v : Word) : (setBlk v s).len = s.len := rfl
@[simp] theorem setBlk_blk (v : Word) : (setBlk v s).blk = v := rfl
@[simp] theorem setBlk_buf (v : Word) : (setBlk v s).buf = s.buf := rfl
@[simp] theorem setBlk_err (v : Word) : (setBlk v s).err = s.err := rfl
@[simp] theorem setBlk_errcode (v : Word) : (setBlk v s).errcode = s.errcode := rfl
@[simp] theorem setBlk_bufcap (v : Word) : (setBlk v s).bufcap = s.bufcap := rfl
@[simp] theorem setBlk_pending (v : Word) : (setBlk v s).pending = s.pending := rfl
@[simp] theorem setBlk_replies (v : Word) : (setBlk v s).replies = s.replies := rfl
@[simp] theorem setBlk_resets (v : Word) : (setBlk v s).resets = s.resets := rfl
@[simp] theorem setBlk_draws (v : Word) : (setBlk v s).draws = s.draws := rfl

/-! ### setLen -/

@[simp] theorem setLen_hdr (v : Word) : (setLen v s).hdr = s.hdr := rfl
@[simp] theorem setLen_seed (v : Word) : (setLen v s).seed = s.seed := rfl
@[simp] theorem setLen_seedv (v : Word) : (setLen v s).seedv = s.seedv := rfl
@[simp] theorem setLen_key (v : Word) : (setLen v s).key = s.key := rfl
@[simp] theorem setLen_keyv (v : Word) : (setLen v s).keyv = s.keyv := rfl
@[simp] theorem setLen_len (v : Word) : (setLen v s).len = v := rfl
@[simp] theorem setLen_blk (v : Word) : (setLen v s).blk = s.blk := rfl
@[simp] theorem setLen_buf (v : Word) : (setLen v s).buf = s.buf := rfl
@[simp] theorem setLen_err (v : Word) : (setLen v s).err = s.err := rfl
@[simp] theorem setLen_errcode (v : Word) : (setLen v s).errcode = s.errcode := rfl
@[simp] theorem setLen_bufcap (v : Word) : (setLen v s).bufcap = s.bufcap := rfl
@[simp] theorem setLen_pending (v : Word) : (setLen v s).pending = s.pending := rfl
@[simp] theorem setLen_replies (v : Word) : (setLen v s).replies = s.replies := rfl
@[simp] theorem setLen_resets (v : Word) : (setLen v s).resets = s.resets := rfl
@[simp] theorem setLen_draws (v : Word) : (setLen v s).draws = s.draws := rfl

/-! ### takeInput -/

@[simp] theorem takeInput_hdr (rest : List Input) : (takeInput rest s).hdr = s.hdr := rfl
@[simp] theorem takeInput_seed (rest : List Input) : (takeInput rest s).seed = s.seed := rfl
@[simp] theorem takeInput_seedv (rest : List Input) : (takeInput rest s).seedv = s.seedv := rfl
@[simp] theorem takeInput_key (rest : List Input) : (takeInput rest s).key = s.key := rfl
@[simp] theorem takeInput_keyv (rest : List Input) : (takeInput rest s).keyv = s.keyv := rfl
@[simp] theorem takeInput_len (rest : List Input) : (takeInput rest s).len = s.len := rfl
@[simp] theorem takeInput_blk (rest : List Input) : (takeInput rest s).blk = s.blk := rfl
@[simp] theorem takeInput_buf (rest : List Input) : (takeInput rest s).buf = s.buf := rfl
@[simp] theorem takeInput_err (rest : List Input) : (takeInput rest s).err = s.err := rfl
@[simp] theorem takeInput_errcode (rest : List Input) : (takeInput rest s).errcode = s.errcode := rfl
@[simp] theorem takeInput_bufcap (rest : List Input) : (takeInput rest s).bufcap = s.bufcap := rfl
@[simp] theorem takeInput_pending (rest : List Input) : (takeInput rest s).pending = rest := rfl
@[simp] theorem takeInput_replies (rest : List Input) : (takeInput rest s).replies = s.replies := rfl
@[simp] theorem takeInput_resets (rest : List Input) : (takeInput rest s).resets = s.resets := rfl
@[simp] theorem takeInput_draws (rest : List Input) : (takeInput rest s).draws = s.draws := rfl

/-! ### reply -/

@[simp] theorem reply_hdr (r : Reply) : (reply r s).hdr = s.hdr := rfl
@[simp] theorem reply_seed (r : Reply) : (reply r s).seed = s.seed := rfl
@[simp] theorem reply_seedv (r : Reply) : (reply r s).seedv = s.seedv := rfl
@[simp] theorem reply_key (r : Reply) : (reply r s).key = s.key := rfl
@[simp] theorem reply_keyv (r : Reply) : (reply r s).keyv = s.keyv := rfl
@[simp] theorem reply_len (r : Reply) : (reply r s).len = s.len := rfl
@[simp] theorem reply_blk (r : Reply) : (reply r s).blk = s.blk := rfl
@[simp] theorem reply_buf (r : Reply) : (reply r s).buf = s.buf := rfl
@[simp] theorem reply_err (r : Reply) : (reply r s).err = s.err := rfl
@[simp] theorem reply_errcode (r : Reply) : (reply r s).errcode = s.errcode := rfl
@[simp] theorem reply_bufcap (r : Reply) : (reply r s).bufcap = s.bufcap := rfl
@[simp] theorem reply_pending (r : Reply) : (reply r s).pending = s.pending := rfl
@[simp] theorem reply_replies (r : Reply) : (reply r s).replies = r :: s.replies := rfl
@[simp] theorem reply_resets (r : Reply) : (reply r s).resets = s.resets := rfl
@[simp] theorem reply_draws (r : Reply) : (reply r s).draws = s.draws := rfl

/-! ### acceptCommand -/

@[simp] theorem acceptCommand_hdr (rest : List Input) : (acceptCommand rest s).hdr = s.hdr := rfl
@[simp] theorem acceptCommand_seed (rest : List Input) : (acceptCommand rest s).seed = s.seed := rfl
@[simp] theorem acceptCommand_seedv (rest : List Input) : (acceptCommand rest s).seedv = s.seedv := rfl
@[simp] theorem acceptCommand_key (rest : List Input) : (acceptCommand rest s).key = s.key := rfl
@[simp] theorem acceptCommand_keyv (rest : List Input) : (acceptCommand rest s).keyv = s.keyv := rfl
@[simp] theorem acceptCommand_len (rest : List Input) : (acceptCommand rest s).len = s.len := rfl
@[simp] theorem acceptCommand_blk (rest : List Input) : (acceptCommand rest s).blk = s.blk := rfl
@[simp] theorem acceptCommand_buf (rest : List Input) : (acceptCommand rest s).buf = s.buf := rfl
@[simp] theorem acceptCommand_err (rest : List Input) : (acceptCommand rest s).err = s.err := rfl
@[simp] theorem acceptCommand_errcode (rest : List Input) : (acceptCommand rest s).errcode = s.errcode := rfl
@[simp] theorem acceptCommand_bufcap (rest : List Input) : (acceptCommand rest s).bufcap = s.bufcap := rfl
@[simp] theorem acceptCommand_pending (rest : List Input) : (acceptCommand rest s).pending = rest := rfl
@[simp] theorem acceptCommand_replies (rest : List Input) : (acceptCommand rest s).replies = .written :: s.replies := rfl
@[simp] theorem acceptCommand_resets (rest : List Input) : (acceptCommand rest s).resets = s.resets := rfl
@[simp] theorem acceptCommand_draws (rest : List Input) : (acceptCommand rest s).draws = s.draws := rfl

/-! ### drawn -/

@[simp] theorem drawn_hdr : (drawn s).hdr = s.hdr := rfl
@[simp] theorem drawn_seed : (drawn s).seed = s.seed := rfl
@[simp] theorem drawn_seedv : (drawn s).seedv = s.seedv := rfl
@[simp] theorem drawn_key : (drawn s).key = s.key := rfl
@[simp] theorem drawn_keyv : (drawn s).keyv = s.keyv := rfl
@[simp] theorem drawn_len : (drawn s).len = s.len := rfl
@[simp] theorem drawn_blk : (drawn s).blk = s.blk := rfl
@[simp] theorem drawn_buf : (drawn s).buf = s.buf := rfl
@[simp] theorem drawn_err : (drawn s).err = s.err := rfl
@[simp] theorem drawn_errcode : (drawn s).errcode = s.errcode := rfl
@[simp] theorem drawn_bufcap : (drawn s).bufcap = s.bufcap := rfl
@[simp] theorem drawn_pending : (drawn s).pending = s.pending := rfl
@[simp] theorem drawn_replies : (drawn s).replies = s.replies := rfl
@[simp] theorem drawn_resets : (drawn s).resets = s.resets := rfl
@[simp] theorem drawn_draws : (drawn s).draws = s.draws + 1 := rfl

/-! ### applyReset -/

@[simp] theorem applyReset_hdr : (applyReset s).hdr = Vector.ofFn fun i => Config.resetHdr (s.resets + 1) i := rfl
@[simp] theorem applyReset_seed : (applyReset s).seed = Config.resetSeed (s.resets + 1) := rfl
@[simp] theorem applyReset_seedv : (applyReset s).seedv = false := rfl
@[simp] theorem applyReset_key : (applyReset s).key = Vector.ofFn fun i => Config.resetKey (s.resets + 1) i := rfl
@[simp] theorem applyReset_keyv : (applyReset s).keyv = false := rfl
@[simp] theorem applyReset_len : (applyReset s).len = 0 := rfl
@[simp] theorem applyReset_blk : (applyReset s).blk = 0 := rfl
@[simp] theorem applyReset_buf : (applyReset s).buf = [] := rfl
@[simp] theorem applyReset_err : (applyReset s).err = false := rfl
@[simp] theorem applyReset_errcode : (applyReset s).errcode = none := rfl
@[simp] theorem applyReset_bufcap : (applyReset s).bufcap = s.bufcap := rfl
@[simp] theorem applyReset_pending : (applyReset s).pending = s.pending := rfl
@[simp] theorem applyReset_replies : (applyReset s).replies = s.replies := rfl
@[simp] theorem applyReset_resets : (applyReset s).resets = s.resets + 1 := rfl
@[simp] theorem applyReset_draws : (applyReset s).draws = s.draws := rfl

/-! ### loadSeed -/

@[simp] theorem loadSeed_hdr (v : DWord) : (loadSeed v s).hdr = s.hdr := rfl
@[simp] theorem loadSeed_seed (v : DWord) : (loadSeed v s).seed = v := rfl
@[simp] theorem loadSeed_seedv (v : DWord) : (loadSeed v s).seedv = true := rfl
@[simp] theorem loadSeed_key (v : DWord) : (loadSeed v s).key = s.key := rfl
@[simp] theorem loadSeed_keyv (v : DWord) : (loadSeed v s).keyv = false := rfl
@[simp] theorem loadSeed_len (v : DWord) : (loadSeed v s).len = s.len := rfl
@[simp] theorem loadSeed_blk (v : DWord) : (loadSeed v s).blk = s.blk := rfl
@[simp] theorem loadSeed_buf (v : DWord) : (loadSeed v s).buf = s.buf := rfl
@[simp] theorem loadSeed_err (v : DWord) : (loadSeed v s).err = s.err := rfl
@[simp] theorem loadSeed_errcode (v : DWord) : (loadSeed v s).errcode = s.errcode := rfl
@[simp] theorem loadSeed_bufcap (v : DWord) : (loadSeed v s).bufcap = s.bufcap := rfl
@[simp] theorem loadSeed_pending (v : DWord) : (loadSeed v s).pending = s.pending := rfl
@[simp] theorem loadSeed_replies (v : DWord) : (loadSeed v s).replies = s.replies := rfl
@[simp] theorem loadSeed_resets (v : DWord) : (loadSeed v s).resets = s.resets := rfl
@[simp] theorem loadSeed_draws (v : DWord) : (loadSeed v s).draws = s.draws := rfl

/-! ### loadKey -/

@[simp] theorem loadKey_hdr (k : Key) : (loadKey k s).hdr = s.hdr := rfl
@[simp] theorem loadKey_seed (k : Key) : (loadKey k s).seed = s.seed := rfl
@[simp] theorem loadKey_seedv (k : Key) : (loadKey k s).seedv = s.seedv := rfl
@[simp] theorem loadKey_key (k : Key) : (loadKey k s).key = k := rfl
@[simp] theorem loadKey_keyv (k : Key) : (loadKey k s).keyv = true := rfl
@[simp] theorem loadKey_len (k : Key) : (loadKey k s).len = s.len := rfl
@[simp] theorem loadKey_blk (k : Key) : (loadKey k s).blk = s.blk := rfl
@[simp] theorem loadKey_buf (k : Key) : (loadKey k s).buf = s.buf := rfl
@[simp] theorem loadKey_err (k : Key) : (loadKey k s).err = s.err := rfl
@[simp] theorem loadKey_errcode (k : Key) : (loadKey k s).errcode = s.errcode := rfl
@[simp] theorem loadKey_bufcap (k : Key) : (loadKey k s).bufcap = s.bufcap := rfl
@[simp] theorem loadKey_pending (k : Key) : (loadKey k s).pending = s.pending := rfl
@[simp] theorem loadKey_replies (k : Key) : (loadKey k s).replies = s.replies := rfl
@[simp] theorem loadKey_resets (k : Key) : (loadKey k s).resets = s.resets := rfl
@[simp] theorem loadKey_draws (k : Key) : (loadKey k s).draws = s.draws := rfl

/-! ### State.setBufBytes -/

@[simp] theorem State.setBufBytes_hdr (a : Nat) (bs : List Byte) : (s.setBufBytes a bs).hdr = s.hdr := by
  induction bs generalizing s a with
  | nil => rfl
  | cons v rest ih => simp [State.setBufBytes, ih]
@[simp] theorem State.setBufBytes_seed (a : Nat) (bs : List Byte) : (s.setBufBytes a bs).seed = s.seed := by
  induction bs generalizing s a with
  | nil => rfl
  | cons v rest ih => simp [State.setBufBytes, ih]
@[simp] theorem State.setBufBytes_seedv (a : Nat) (bs : List Byte) : (s.setBufBytes a bs).seedv = s.seedv := by
  induction bs generalizing s a with
  | nil => rfl
  | cons v rest ih => simp [State.setBufBytes, ih]
@[simp] theorem State.setBufBytes_key (a : Nat) (bs : List Byte) : (s.setBufBytes a bs).key = s.key := by
  induction bs generalizing s a with
  | nil => rfl
  | cons v rest ih => simp [State.setBufBytes, ih]
@[simp] theorem State.setBufBytes_keyv (a : Nat) (bs : List Byte) : (s.setBufBytes a bs).keyv = s.keyv := by
  induction bs generalizing s a with
  | nil => rfl
  | cons v rest ih => simp [State.setBufBytes, ih]
@[simp] theorem State.setBufBytes_len (a : Nat) (bs : List Byte) : (s.setBufBytes a bs).len = s.len := by
  induction bs generalizing s a with
  | nil => rfl
  | cons v rest ih => simp [State.setBufBytes, ih]
@[simp] theorem State.setBufBytes_blk (a : Nat) (bs : List Byte) : (s.setBufBytes a bs).blk = s.blk := by
  induction bs generalizing s a with
  | nil => rfl
  | cons v rest ih => simp [State.setBufBytes, ih]
@[simp] theorem State.setBufBytes_err (a : Nat) (bs : List Byte) : (s.setBufBytes a bs).err = s.err := by
  induction bs generalizing s a with
  | nil => rfl
  | cons v rest ih => simp [State.setBufBytes, ih]
@[simp] theorem State.setBufBytes_errcode (a : Nat) (bs : List Byte) : (s.setBufBytes a bs).errcode = s.errcode := by
  induction bs generalizing s a with
  | nil => rfl
  | cons v rest ih => simp [State.setBufBytes, ih]
@[simp] theorem State.setBufBytes_bufcap (a : Nat) (bs : List Byte) : (s.setBufBytes a bs).bufcap = s.bufcap := by
  induction bs generalizing s a with
  | nil => rfl
  | cons v rest ih => simp [State.setBufBytes, ih]
@[simp] theorem State.setBufBytes_pending (a : Nat) (bs : List Byte) : (s.setBufBytes a bs).pending = s.pending := by
  induction bs generalizing s a with
  | nil => rfl
  | cons v rest ih => simp [State.setBufBytes, ih]
@[simp] theorem State.setBufBytes_replies (a : Nat) (bs : List Byte) : (s.setBufBytes a bs).replies = s.replies := by
  induction bs generalizing s a with
  | nil => rfl
  | cons v rest ih => simp [State.setBufBytes, ih]
@[simp] theorem State.setBufBytes_resets (a : Nat) (bs : List Byte) : (s.setBufBytes a bs).resets = s.resets := by
  induction bs generalizing s a with
  | nil => rfl
  | cons v rest ih => simp [State.setBufBytes, ih]
@[simp] theorem State.setBufBytes_draws (a : Nat) (bs : List Byte) : (s.setBufBytes a bs).draws = s.draws := by
  induction bs generalizing s a with
  | nil => rfl
  | cons v rest ih => simp [State.setBufBytes, ih]

/-! ### State.setHdrBytes -/

@[simp] theorem State.setHdrBytes_seed (a : Nat) (bs : List Byte) : (s.setHdrBytes a bs).seed = s.seed := by
  induction bs generalizing s a with
  | nil => rfl
  | cons v rest ih => simp [State.setHdrBytes, ih]
@[simp] theorem State.setHdrBytes_seedv (a : Nat) (bs : List Byte) : (s.setHdrBytes a bs).seedv = s.seedv := by
  induction bs generalizing s a with
  | nil => rfl
  | cons v rest ih => simp [State.setHdrBytes, ih]
@[simp] theorem State.setHdrBytes_key (a : Nat) (bs : List Byte) : (s.setHdrBytes a bs).key = s.key := by
  induction bs generalizing s a with
  | nil => rfl
  | cons v rest ih => simp [State.setHdrBytes, ih]
@[simp] theorem State.setHdrBytes_keyv (a : Nat) (bs : List Byte) : (s.setHdrBytes a bs).keyv = s.keyv := by
  induction bs generalizing s a with
  | nil => rfl
  | cons v rest ih => simp [State.setHdrBytes, ih]
@[simp] theorem State.setHdrBytes_len (a : Nat) (bs : List Byte) : (s.setHdrBytes a bs).len = s.len := by
  induction bs generalizing s a with
  | nil => rfl
  | cons v rest ih => simp [State.setHdrBytes, ih]
@[simp] theorem State.setHdrBytes_blk (a : Nat) (bs : List Byte) : (s.setHdrBytes a bs).blk = s.blk := by
  induction bs generalizing s a with
  | nil => rfl
  | cons v rest ih => simp [State.setHdrBytes, ih]
@[simp] theorem State.setHdrBytes_buf (a : Nat) (bs : List Byte) : (s.setHdrBytes a bs).buf = s.buf := by
  induction bs generalizing s a with
  | nil => rfl
  | cons v rest ih => simp [State.setHdrBytes, ih]
@[simp] theorem State.setHdrBytes_err (a : Nat) (bs : List Byte) : (s.setHdrBytes a bs).err = s.err := by
  induction bs generalizing s a with
  | nil => rfl
  | cons v rest ih => simp [State.setHdrBytes, ih]
@[simp] theorem State.setHdrBytes_errcode (a : Nat) (bs : List Byte) : (s.setHdrBytes a bs).errcode = s.errcode := by
  induction bs generalizing s a with
  | nil => rfl
  | cons v rest ih => simp [State.setHdrBytes, ih]
@[simp] theorem State.setHdrBytes_bufcap (a : Nat) (bs : List Byte) : (s.setHdrBytes a bs).bufcap = s.bufcap := by
  induction bs generalizing s a with
  | nil => rfl
  | cons v rest ih => simp [State.setHdrBytes, ih]
@[simp] theorem State.setHdrBytes_pending (a : Nat) (bs : List Byte) : (s.setHdrBytes a bs).pending = s.pending := by
  induction bs generalizing s a with
  | nil => rfl
  | cons v rest ih => simp [State.setHdrBytes, ih]
@[simp] theorem State.setHdrBytes_replies (a : Nat) (bs : List Byte) : (s.setHdrBytes a bs).replies = s.replies := by
  induction bs generalizing s a with
  | nil => rfl
  | cons v rest ih => simp [State.setHdrBytes, ih]
@[simp] theorem State.setHdrBytes_resets (a : Nat) (bs : List Byte) : (s.setHdrBytes a bs).resets = s.resets := by
  induction bs generalizing s a with
  | nil => rfl
  | cons v rest ih => simp [State.setHdrBytes, ih]
@[simp] theorem State.setHdrBytes_draws (a : Nat) (bs : List Byte) : (s.setHdrBytes a bs).draws = s.draws := by
  induction bs generalizing s a with
  | nil => rfl
  | cons v rest ih => simp [State.setHdrBytes, ih]

/-! ### writeBytes8 -/

@[simp] theorem writeBytes8_hdr (a : Nat) (b : Block) : (writeBytes8 s a b).hdr = s.hdr := by simp [writeBytes8]
@[simp] theorem writeBytes8_seed (a : Nat) (b : Block) : (writeBytes8 s a b).seed = s.seed := by simp [writeBytes8]
@[simp] theorem writeBytes8_seedv (a : Nat) (b : Block) : (writeBytes8 s a b).seedv = s.seedv := by simp [writeBytes8]
@[simp] theorem writeBytes8_key (a : Nat) (b : Block) : (writeBytes8 s a b).key = s.key := by simp [writeBytes8]
@[simp] theorem writeBytes8_keyv (a : Nat) (b : Block) : (writeBytes8 s a b).keyv = s.keyv := by simp [writeBytes8]
@[simp] theorem writeBytes8_len (a : Nat) (b : Block) : (writeBytes8 s a b).len = s.len := by simp [writeBytes8]
@[simp] theorem writeBytes8_blk (a : Nat) (b : Block) : (writeBytes8 s a b).blk = s.blk := by simp [writeBytes8]
@[simp] theorem writeBytes8_err (a : Nat) (b : Block) : (writeBytes8 s a b).err = s.err := by simp [writeBytes8]
@[simp] theorem writeBytes8_errcode (a : Nat) (b : Block) : (writeBytes8 s a b).errcode = s.errcode := by simp [writeBytes8]
@[simp] theorem writeBytes8_bufcap (a : Nat) (b : Block) : (writeBytes8 s a b).bufcap = s.bufcap := by simp [writeBytes8]
@[simp] theorem writeBytes8_pending (a : Nat) (b : Block) : (writeBytes8 s a b).pending = s.pending := by simp [writeBytes8]
@[simp] theorem writeBytes8_replies (a : Nat) (b : Block) : (writeBytes8 s a b).replies = s.replies := by simp [writeBytes8]
@[simp] theorem writeBytes8_resets (a : Nat) (b : Block) : (writeBytes8 s a b).resets = s.resets := by simp [writeBytes8]
@[simp] theorem writeBytes8_draws (a : Nat) (b : Block) : (writeBytes8 s a b).draws = s.draws := by simp [writeBytes8]

/-! ### cipherStep and cipherSteps -/

@[simp] theorem cipherStep_hdr (f : Key → Word → Block → Block) : (cipherStep f s).hdr = s.hdr := by
  simp [cipherStep, writeBlock]
@[simp] theorem cipherStep_seed (f : Key → Word → Block → Block) : (cipherStep f s).seed = s.seed := by
  simp [cipherStep, writeBlock]
@[simp] theorem cipherStep_seedv (f : Key → Word → Block → Block) : (cipherStep f s).seedv = s.seedv := by
  simp [cipherStep, writeBlock]
@[simp] theorem cipherStep_key (f : Key → Word → Block → Block) : (cipherStep f s).key = s.key := by
  simp [cipherStep, writeBlock]
@[simp] theorem cipherStep_keyv (f : Key → Word → Block → Block) : (cipherStep f s).keyv = s.keyv := by
  simp [cipherStep, writeBlock]
@[simp] theorem cipherStep_len (f : Key → Word → Block → Block) : (cipherStep f s).len = s.len := by
  simp [cipherStep, writeBlock]
@[simp] theorem cipherStep_err (f : Key → Word → Block → Block) : (cipherStep f s).err = s.err := by
  simp [cipherStep, writeBlock]
@[simp] theorem cipherStep_errcode (f : Key → Word → Block → Block) : (cipherStep f s).errcode = s.errcode := by
  simp [cipherStep, writeBlock]
@[simp] theorem cipherStep_bufcap (f : Key → Word → Block → Block) : (cipherStep f s).bufcap = s.bufcap := by
  simp [cipherStep, writeBlock]
@[simp] theorem cipherStep_pending (f : Key → Word → Block → Block) : (cipherStep f s).pending = s.pending := by
  simp [cipherStep, writeBlock]
@[simp] theorem cipherStep_replies (f : Key → Word → Block → Block) : (cipherStep f s).replies = s.replies := by
  simp [cipherStep, writeBlock]
@[simp] theorem cipherStep_resets (f : Key → Word → Block → Block) : (cipherStep f s).resets = s.resets := by
  simp [cipherStep, writeBlock]
@[simp] theorem cipherStep_draws (f : Key → Word → Block → Block) : (cipherStep f s).draws = s.draws := by
  simp [cipherStep, writeBlock]
@[simp] theorem cipherStep_blk (f : Key → Word → Block → Block) : (cipherStep f s).blk = s.blk + 1 := rfl

@[simp] theorem cipherSteps_hdr (f : Key → Word → Block → Block) (n : Nat) : (cipherSteps f n s).hdr = s.hdr := by
  induction n generalizing s with
  | zero => rfl
  | succ n ih => simp [cipherSteps, ih]
@[simp] theorem cipherSteps_seed (f : Key → Word → Block → Block) (n : Nat) : (cipherSteps f n s).seed = s.seed := by
  induction n generalizing s with
  | zero => rfl
  | succ n ih => simp [cipherSteps, ih]
@[simp] theorem cipherSteps_seedv (f : Key → Word → Block → Block) (n : Nat) : (cipherSteps f n s).seedv = s.seedv := by
  induction n generalizing s with
  | zero => rfl
  | succ n ih => simp [cipherSteps, ih]
@[simp] theorem cipherSteps_key (f : Key → Word → Block → Block) (n : Nat) : (cipherSteps f n s).key = s.key := by
  induction n generalizing s with
  | zero => rfl
  | succ n ih => simp [cipherSteps, ih]
@[simp] theorem cipherSteps_keyv (f : Key → Word → Block → Block) (n : Nat) : (cipherSteps f n s).keyv = s.keyv := by
  induction n generalizing s with
  | zero => rfl
  | succ n ih => simp [cipherSteps, ih]
@[simp] theorem cipherSteps_len (f : Key → Word → Block → Block) (n : Nat) : (cipherSteps f n s).len = s.len := by
  induction n generalizing s with
  | zero => rfl
  | succ n ih => simp [cipherSteps, ih]
@[simp] theorem cipherSteps_err (f : Key → Word → Block → Block) (n : Nat) : (cipherSteps f n s).err = s.err := by
  induction n generalizing s with
  | zero => rfl
  | succ n ih => simp [cipherSteps, ih]
@[simp] theorem cipherSteps_errcode (f : Key → Word → Block → Block) (n : Nat) : (cipherSteps f n s).errcode = s.errcode := by
  induction n generalizing s with
  | zero => rfl
  | succ n ih => simp [cipherSteps, ih]
@[simp] theorem cipherSteps_bufcap (f : Key → Word → Block → Block) (n : Nat) : (cipherSteps f n s).bufcap = s.bufcap := by
  induction n generalizing s with
  | zero => rfl
  | succ n ih => simp [cipherSteps, ih]
@[simp] theorem cipherSteps_pending (f : Key → Word → Block → Block) (n : Nat) : (cipherSteps f n s).pending = s.pending := by
  induction n generalizing s with
  | zero => rfl
  | succ n ih => simp [cipherSteps, ih]
@[simp] theorem cipherSteps_replies (f : Key → Word → Block → Block) (n : Nat) : (cipherSteps f n s).replies = s.replies := by
  induction n generalizing s with
  | zero => rfl
  | succ n ih => simp [cipherSteps, ih]
@[simp] theorem cipherSteps_resets (f : Key → Word → Block → Block) (n : Nat) : (cipherSteps f n s).resets = s.resets := by
  induction n generalizing s with
  | zero => rfl
  | succ n ih => simp [cipherSteps, ih]
@[simp] theorem cipherSteps_draws (f : Key → Word → Block → Block) (n : Nat) : (cipherSteps f n s).draws = s.draws := by
  induction n generalizing s with
  | zero => rfl
  | succ n ih => simp [cipherSteps, ih]

end Sys2Proof.Machine
end

