-- ==== Sys2Proof/Laws/Memory.lean ====
section
/-! SUPPORT. The buffer memory: a read after a write, the canonical form kept by every operation, and what the wider
accesses do, each said once. -/

namespace Sys2Proof.Machine

/-! ### One byte -/

theorem Memory.find_write_same (m : List Host.Cell) (a : Nat) (v : Byte) : Memory.find (Memory.write m a v) a = some v := by
  induction m with
  | nil => simp [Memory.write, Memory.find]
  | cons c rest ih =>
    obtain ⟨b, w⟩ := c
    simp only [Memory.write]
    split
    · simp [Memory.find]
    · split
      · simp [Memory.find]
      · next h => simp [Memory.find, ih, Ne.symm h]

theorem Memory.find_write_ne (m : List Host.Cell) {a x : Nat} (v : Byte) (h : x ≠ a) :
    Memory.find (Memory.write m a v) x = Memory.find m x := by
  induction m with
  | nil => simp [Memory.write, Memory.find, Ne.symm h]
  | cons c rest ih =>
    obtain ⟨b, w⟩ := c
    simp only [Memory.write]
    split
    · simp [Memory.find, Ne.symm h]
    · split
      · next hab => subst hab; simp [Memory.find, Ne.symm h]
      · simp [Memory.find, ih]

theorem Memory.risesAbove_write (m : List Host.Cell) {lo a : Nat} (v : Byte) (h : lo < a) (hm : Memory.risesAbove lo m = true) :
    Memory.risesAbove lo (Memory.write m a v) = true := by
  induction m generalizing lo with
  | nil => simpa [Memory.write, Memory.risesAbove] using h
  | cons c rest ih =>
    obtain ⟨b, w⟩ := c
    simp only [Memory.risesAbove, Bool.and_eq_true, decide_eq_true_eq] at hm
    simp only [Memory.write]
    split
    · next hab => simp [Memory.risesAbove, h, hab, hm.2]
    · split
      · next hab => subst hab; simp [Memory.risesAbove, h, hm.2]
      · simp only [Memory.risesAbove, hm.1, decide_true, Bool.true_and]
        exact ih (by omega) hm.2

theorem Memory.wf_write (m : List Host.Cell) (a : Nat) (v : Byte) (hm : Memory.wf m = true) :
    Memory.wf (Memory.write m a v) = true := by
  cases m with
  | nil => rfl
  | cons c rest =>
    obtain ⟨b, w⟩ := c
    simp only [Memory.wf] at hm
    simp only [Memory.write]
    split
    · next hab => simp [Memory.wf, Memory.risesAbove, hab, hm]
    · split
      · next hab => subst hab; simpa [Memory.wf] using hm
      · exact Memory.risesAbove_write rest v (by omega) hm

theorem Memory.below_write (m : List Host.Cell) {cap a : Nat} (v : Byte) (h : a < cap) (hm : Memory.below cap m = true) :
    Memory.below cap (Memory.write m a v) = true := by
  induction m with
  | nil => simpa [Memory.write, Memory.below] using h
  | cons c rest ih =>
    obtain ⟨b, w⟩ := c
    simp only [Memory.below, List.all_cons, Bool.and_eq_true, decide_eq_true_eq] at hm ih
    simp only [Memory.write]
    split
    · simpa [Memory.below, h, hm.1] using hm.2
    · split
      · simpa [Memory.below, h] using hm.2
      · simpa [Memory.below, hm.1] using ih hm.2

@[simp] theorem bufByte_setBufByte_same (s : State) (a : Nat) (v : Byte) : (s.setBufByte a v).bufByte a = v := by
  simp [State.bufByte, Memory.find_write_same]

theorem bufByte_setBufByte_ne (s : State) {a x : Nat} (v : Byte) (h : x ≠ a) :
    (s.setBufByte a v).bufByte x = s.bufByte x := by
  simp [State.bufByte, Memory.find_write_ne _ _ h]

/-- A byte of `BUF` depends on the memory and on the reset it dates from, on nothing else. -/
theorem bufByte_congr {s t : State} (hb : t.buf = s.buf) (hr : t.resets = s.resets) (a : Nat) : t.bufByte a = s.bufByte a := by
  simp [State.bufByte, hb, hr]

/-! ### A run of bytes -/

theorem bufByte_setBufBytes_outside (s : State) (a : Nat) (bs : List Byte) {x : Nat} (h : x < a ∨ a + bs.length ≤ x) :
    (s.setBufBytes a bs).bufByte x = s.bufByte x := by
  induction bs generalizing s a with
  | nil => rfl
  | cons v rest ih =>
    simp only [List.length_cons] at h
    rw [State.setBufBytes, ih _ _ (by omega), bufByte_setBufByte_ne _ _ (by omega)]

theorem bufByte_setBufBytes_inside (s : State) (a : Nat) (bs : List Byte) {k : Nat} (h : k < bs.length) :
    (s.setBufBytes a bs).bufByte (a + k) = bs[k] := by
  induction bs generalizing s a k with
  | nil => simp at h
  | cons v rest ih =>
    cases k with
    | zero => rw [State.setBufBytes, bufByte_setBufBytes_outside _ _ _ (by omega)]; simp
    | succ k =>
      simp only [List.length_cons] at h
      have := ih (s.setBufByte a v) (a + 1) (k := k) (by omega)
      simpa [State.setBufBytes, Nat.add_assoc, Nat.add_comm 1 k] using this

theorem setBufBytes_wf (s : State) (a : Nat) (bs : List Byte) (h : Memory.wf s.buf = true) :
    Memory.wf (s.setBufBytes a bs).buf = true := by
  induction bs generalizing s a with
  | nil => exact h
  | cons v rest ih => exact ih _ _ (Memory.wf_write _ _ _ h)

theorem setBufBytes_below (s : State) (a cap : Nat) (bs : List Byte) (ha : a + bs.length ≤ cap)
    (h : Memory.below cap s.buf = true) : Memory.below cap (s.setBufBytes a bs).buf = true := by
  induction bs generalizing s a with
  | nil => exact h
  | cons v rest ih =>
    simp only [List.length_cons] at ha
    exact ih _ _ (by omega) (Memory.below_write _ _ (by omega) h)

/-! ### Eight bytes -/

theorem bufByte_writeBytes8_outside (s : State) (a : Nat) (b : Block) {x : Nat} (h : x < a ∨ a + 8 ≤ x) :
    (writeBytes8 s a b).bufByte x = s.bufByte x :=
  bufByte_setBufBytes_outside _ _ _ (by simpa using h)

theorem bufByte_writeBytes8_inside (s : State) (a : Nat) (b : Block) (k : Nat) (h : k < 8) :
    (writeBytes8 s a b).bufByte (a + k) = b[k] := by
  have := bufByte_setBufBytes_inside s a b.toList (k := k) (by simpa using h)
  simpa [writeBytes8] using this

/-- Byte `k` of the eight at an address is the byte at that address plus `k`. -/
theorem readBytes8_getElem (s : State) (a k : Nat) (h : k < 8) : (readBytes8 s a)[k] = s.bufByte (a + k) := by
  obtain rfl | rfl | rfl | rfl | rfl | rfl | rfl | rfl :
      k = 0 ∨ k = 1 ∨ k = 2 ∨ k = 3 ∨ k = 4 ∨ k = 5 ∨ k = 6 ∨ k = 7 := by omega
  all_goals rfl

theorem readBytes8_writeBytes8_same (s : State) (a : Nat) (b : Block) : readBytes8 (writeBytes8 s a b) a = b := by
  refine Vector.ext fun k hk => ?_
  rw [readBytes8_getElem _ _ _ hk, bufByte_writeBytes8_inside _ _ _ _ hk]

theorem readBytes8_writeBytes8_disjoint (s : State) (a c : Nat) (b : Block) (h : c + 8 ≤ a ∨ a + 8 ≤ c) :
    readBytes8 (writeBytes8 s a b) c = readBytes8 s c := by
  refine Vector.ext fun k hk => ?_
  rw [readBytes8_getElem _ _ _ hk, readBytes8_getElem _ _ _ hk, bufByte_writeBytes8_outside _ _ _ (by omega)]

end Sys2Proof.Machine
end

