-- ==== Sys2Proof/Laws/Cipher.lean ====
section
/-! SUPPORT. What a pass of ENC or DEC does to the buffer memory, by induction on the blocks: block `j` is the
transform of block `j` as it was, bytes above the pass are untouched, `BLK` counts the blocks. -/

namespace Sys2Proof.Machine

theorem cipherSteps_blk (f : Key → Word → Block → Block) (n : Nat) (s : State) :
    (cipherSteps f n s).blk = s.blk + BitVec.ofNat 32 n := by
  induction n generalizing s with
  | zero => simp [cipherSteps]
  | succ n ih =>
    rw [cipherSteps, ih, cipherStep_blk, BitVec.add_assoc]
    congr 1
    rw [Nat.add_comm n 1, BitVec.ofNat_add]
    rfl

theorem cipherSteps_blk_of_zero (f : Key → Word → Block → Block) (n : Nat) (s : State) (h0 : s.blk = 0) :
    (cipherSteps f n s).blk = BitVec.ofNat 32 n := by
  rw [cipherSteps_blk, h0]
  exact BitVec.zero_add _

/-- Where the next block of a pass from `BLK` = 0 stands. -/
theorem cipherSteps_blockAddr (f : Key → Word → Block → Block) (n : Nat) (s : State) (hn : n < 2 ^ 32) (h0 : s.blk = 0) :
    blockAddr (cipherSteps f n s).blk = 8 * n := by
  rw [cipherSteps_blk_of_zero f n s h0, blockAddr, BitVec.toNat_ofNat, Nat.mod_eq_of_lt hn]

/-- `n + 1` turns are `n` turns and one more at the end. -/
theorem cipherSteps_succ_last (f : Key → Word → Block → Block) (n : Nat) (s : State) :
    cipherSteps f (n + 1) s = cipherStep f (cipherSteps f n s) := by
  induction n generalizing s with
  | zero => rfl
  | succ n ih => rw [cipherSteps, ih]; rfl

theorem cipherStep_bufByte_outside (f : Key → Word → Block → Block) (s : State) {x : Nat}
    (h : x < blockAddr s.blk ∨ blockAddr s.blk + 8 ≤ x) : (cipherStep f s).bufByte x = s.bufByte x :=
  bufByte_writeBytes8_outside _ _ _ h

/-- A pass from `BLK` = 0 leaves every byte above its blocks as it was (rule R29). -/
theorem cipherSteps_bufByte_above (f : Key → Word → Block → Block) (n : Nat) (s : State) (hn : n < 2 ^ 32)
    (h0 : s.blk = 0) {x : Nat} (hx : 8 * n ≤ x) : (cipherSteps f n s).bufByte x = s.bufByte x := by
  induction n with
  | zero => rfl
  | succ n ih =>
    rw [cipherSteps_succ_last, cipherStep_bufByte_outside, ih (by omega) (by omega)]
    right
    rw [cipherSteps_blockAddr f n s (by omega) h0]
    omega

/-- After a pass from `BLK` = 0 each block is the transform of what it was (rules R121, R134, R136). -/
theorem cipherSteps_block (f : Key → Word → Block → Block) (n : Nat) (s : State) (hn : n < 2 ^ 32) (h0 : s.blk = 0)
    {j : Nat} (hj : j < n) :
    readBytes8 (cipherSteps f n s) (8 * j) = f s.key (BitVec.ofNat 32 j) (readBytes8 s (8 * j)) := by
  induction n with
  | zero => omega
  | succ n ih =>
    have hblk := cipherSteps_blk_of_zero f n s h0
    have haddr := cipherSteps_blockAddr f n s (by omega) h0
    have hlast : cipherSteps f (n + 1) s = setBlk ((cipherSteps f n s).blk + 1)
        (writeBytes8 (cipherSteps f n s) (8 * n)
          (f (cipherSteps f n s).key (cipherSteps f n s).blk (readBytes8 (cipherSteps f n s) (8 * n)))) := by
      rw [cipherSteps_succ_last, cipherStep, writeBlock, readBlock, haddr]
    rw [hlast]
    by_cases hjn : j = n
    · subst hjn
      have hsame : readBytes8 (cipherSteps f j s) (8 * j) = readBytes8 s (8 * j) := by
        refine Vector.ext fun k hk => ?_
        rw [readBytes8_getElem _ _ _ hk, readBytes8_getElem _ _ _ hk,
          cipherSteps_bufByte_above f j s (by omega) h0 (by omega)]
      show readBytes8 (writeBytes8 _ _ _) _ = _
      rw [readBytes8_writeBytes8_same, hsame, hblk, cipherSteps_key]
    · show readBytes8 (writeBytes8 _ _ _) _ = _
      rw [readBytes8_writeBytes8_disjoint _ _ _ _ (by omega), ih (by omega) (by omega)]

theorem cipherSteps_wf (f : Key → Word → Block → Block) (n : Nat) (s : State) (h : Memory.wf s.buf = true) :
    Memory.wf (cipherSteps f n s).buf = true := by
  induction n generalizing s with
  | zero => exact h
  | succ n ih => exact ih _ (setBufBytes_wf s _ _ h)

/-- A pass from `BLK` = 0 writes below its last block's end only. -/
theorem cipherSteps_below (f : Key → Word → Block → Block) (n cap : Nat) (s : State) (hn : n < 2 ^ 32) (h0 : s.blk = 0)
    (hcap : 8 * n ≤ cap) (h : Memory.below cap s.buf = true) : Memory.below cap (cipherSteps f n s).buf = true := by
  induction n with
  | zero => exact h
  | succ n ih =>
    rw [cipherSteps_succ_last]
    refine setBufBytes_below _ _ _ _ ?_ (ih (by omega) (by omega))
    rw [cipherSteps_blockAddr f n s (by omega) h0]
    simp
    omega

/-- Rule R10: the capacity is a multiple of 8 from 8 to 2^32 - 8. -/
theorem BufCap.bytes_range (c : BufCap) : c.bytes % 8 = 0 ∧ 8 ≤ c.bytes ∧ c.bytes ≤ 2 ^ 32 - 8 := by
  have := c.lastBlock.isLt
  simp only [BufCap.bytes]
  omega

end Sys2Proof.Machine
end

