-- ==== Sys2Proof/Laws/PerInstr.lean ====
section
/-! SUPPORT. Statements for all commands, one lemma per constructor. -/

namespace Sys2Proof.Laws.DecodesBack

/-- The command's word is well formed, and the decoder reads the command back from the bytes of its bus write
(`30_encoding.md` rules R72, R77). -/
def Statement (i : Instr) : Prop := wordWellFormed (encode i) = true ∧ decodeBytes (encodeBytes i) = .ok i

theorem nop : Statement .nop := ⟨by decide, by decide⟩

theorem seedx : Statement .seedx := ⟨by decide, by decide⟩

theorem seedld : Statement .seedld := ⟨by decide, by decide⟩

theorem kexp : Statement .kexp := ⟨by decide, by decide⟩

theorem enc : Statement .enc := ⟨by decide, by decide⟩

theorem dec : Statement .dec := ⟨by decide, by decide⟩

theorem clr : Statement .clr := ⟨by decide, by decide⟩

end Sys2Proof.Laws.DecodesBack
end

