-- ==== Sys2Proof/Laws/Step.lean ====
section
/-! SUPPORT. What the shared operations and a step can do, each said once: the ERR gate, the cipher command, a host
read, a host write, a step. -/

namespace Sys2Proof.Machine

/-! ### The ERR gate and the cipher command -/

@[simp] theorem unlessError_of_err {s : State} (k : State) (h : s.err = true) : unlessError s k = s := by simp [unlessError, h]

@[simp] theorem unlessError_of_ok {s : State} (k : State) (h : s.err = false) : unlessError s k = k := by simp [unlessError, h]

theorem malformedLength_eq_false {s : State} : malformedLength s = false ↔ s.len.toNat % 8 = 0 ∧ s.len.toNat ≤ s.bufcap.bytes := by
  simp [malformedLength]

theorem malformedLength_eq_true {s : State} : malformedLength s = true ↔ s.len.toNat % 8 ≠ 0 ∨ s.bufcap.bytes < s.len.toNat := by
  simp [malformedLength]

/-- What an ENC or a DEC can do: nothing while `ERR` = 1, a fault, or the whole pass (rule R181). -/
theorem cipherCommand_cases (f : Key → Word → Block → Block) (s : State) :
    (s.err = true ∧ cipherCommand f s = s) ∨
    (s.err = false ∧ s.keyv = false ∧ cipherCommand f s = raise .nokey s) ∨
    (s.err = false ∧ s.keyv = true ∧ malformedLength s = true ∧ cipherCommand f s = raise .malformed s) ∨
    (s.err = false ∧ s.keyv = true ∧ malformedLength s = false ∧ cipherCommand f s = cipherPass f s) := by
  cases he : s.err
  · cases hk : s.keyv
    · right; left; simp [cipherCommand, he, hk]
    · cases hm : malformedLength s
      · right; right; right; simp [cipherCommand, he, hk, hm]
      · right; right; left; simp [cipherCommand, he, hk, hm]
  · left; simp [cipherCommand, he]

/-! ### Host accesses -/

/-- What a host read can do: one answer, and a free value drawn where the value is unspecified (rules R34, R37). -/
theorem hostRead_cases (off n : Nat) (s : State) :
    (∃ why, access s.bufcap.bytes off n = .error why ∧
      hostRead off n s = drawn (reply (.refusedRead why (freeBytes s.draws n)) s)) ∨
    (∃ l i, access s.bufcap.bytes off n = .ok (l, i) ∧ readsUnspecified s l = true ∧
      hostRead off n s = drawn (reply (.data (freeBytes s.draws n)) s)) ∨
    (∃ l i, access s.bufcap.bytes off n = .ok (l, i) ∧ readsUnspecified s l = false ∧
      hostRead off n s = reply (.data (locBytes s l i n)) s) := by
  unfold hostRead
  cases h : access s.bufcap.bytes off n with
  | error why => left; exact ⟨why, rfl, rfl⟩
  | ok p =>
    obtain ⟨l, i⟩ := p
    cases hu : readsUnspecified s l
    · right; right; exact ⟨l, i, rfl, hu, by simp [hu]⟩
    · right; left; exact ⟨l, i, rfl, hu, by simp [hu]⟩

/-- What a host write that is no command can do: be refused, or store into the place and be answered (rule R37). -/
theorem hostWrite_cases (off : Nat) (bs : List Byte) (s : State) :
    (∃ why, hostWrite off bs s = reply (.refusedWrite why) s) ∨
    (∃ l i t, access s.bufcap.bytes off bs.length = .ok (l, i) ∧ writeLoc l i bs s = some t ∧
      hostWrite off bs s = reply .written t) := by
  unfold hostWrite
  cases h : access s.bufcap.bytes off bs.length with
  | error why => left; exact ⟨why, rfl⟩
  | ok p =>
    obtain ⟨l, i⟩ := p
    cases hw : writeLoc l i bs s with
    | none => left; exact ⟨.readOnly, by simp [hw]⟩
    | some t => right; exact ⟨l, i, t, rfl, hw, by simp [hw]⟩

/-- What a write into a place can leave: the state as it was, a new `LEN`, new `HDR` bytes, or new `BUF` bytes. -/
theorem writeLoc_cases {l : Loc} {i : Nat} {bs : List Byte} {s t : State} (h : writeLoc l i bs s = some t) :
    t = s ∨ (∃ v, t = setLen v s) ∨ t = s.setHdrBytes i bs ∨ (l = .buf ∧ t = s.setBufBytes i bs) := by
  cases l with
  | cmd => left; simpa [writeLoc] using h.symm
  | len =>
    simp only [writeLoc, Option.map_eq_some_iff] at h
    obtain ⟨v, -, rfl⟩ := h
    exact .inr (.inl ⟨v, rfl⟩)
  | hdr => right; right; left; simpa [writeLoc] using h.symm
  | buf => right; right; right; exact ⟨rfl, by simpa [writeLoc] using h.symm⟩
  | status => simp [writeLoc] at h
  | blk => simp [writeLoc] at h
  | seedLo => simp [writeLoc] at h
  | seedHi => simp [writeLoc] at h
  | key => simp [writeLoc] at h

/-- The bytes of an accepted access of the `BUF` window lie below `BUFCAP` (rule R36). -/
theorem access_buf {cap off n i : Nat} (h : access cap off n = .ok (.buf, i)) : i + n ≤ cap := by
  unfold access at h
  cases hl : locate cap off with
  | none => simp [hl] at h
  | some r =>
    simp only [hl] at h
    cases hr : rowTakes r off n with
    | error why => simp [hr] at h
    | ok u =>
      simp only [hr, Except.ok.injEq, Prod.mk.injEq] at h
      obtain ⟨hloc, rfl⟩ := h
      have hp := List.find?_some hl
      have hm := List.mem_of_find?_eq_some hl
      simp only [Bool.and_eq_true, decide_eq_true_eq] at hp
      simp only [windowMap, List.mem_cons, List.not_mem_nil, or_false] at hm
      rcases hm with rfl | rfl | rfl | rfl | rfl | rfl | rfl | rfl | rfl <;> simp at hloc
      simp only [rowTakes, Bool.false_eq_true, if_false] at hr
      split at hr
      · simp at hr
      · split at hr
        · simp at hr
        · simp only [] at hp ⊢
          omega

/-! ### A step -/

/-- What a step can do: nothing pending, an access or a reset, a command, or an illegal word (rules R16, R181). -/
theorem step_cases (s : State) :
    (s.pending = [] ∧ step s = .next s) ∨
    (∃ i rest, s.pending = i :: rest ∧ commandBytes i = none ∧ step s = .next (applyInput i (takeInput rest s))) ∨
    (∃ i rest bs c, s.pending = i :: rest ∧ commandBytes i = some bs ∧ decodeBytes bs = .ok c ∧
      step s = exec c (acceptCommand rest s)) ∨
    (∃ i rest bs r, s.pending = i :: rest ∧ commandBytes i = some bs ∧ decodeBytes bs = .error r ∧
      step s = .next (illegalCommand (acceptCommand rest s))) := by
  unfold step
  cases hp : s.pending with
  | nil => left; exact ⟨rfl, rfl⟩
  | cons i rest =>
    cases hc : commandBytes i with
    | none => right; left; exact ⟨i, rest, rfl, hc, by simp only [hc]⟩
    | some bs =>
      cases hd : decodeBytes bs with
      | ok c => right; right; left; exact ⟨i, rest, bs, c, rfl, hc, hd, by simp only [hc, hd]⟩
      | error r => right; right; right; exact ⟨i, rest, bs, r, rfl, hc, hd, by simp only [hc, hd]⟩

/-- The bytes of a command are those of a 32-bit write at offset 0 (rule R70). -/
theorem commandBytes_eq_some {i : Input} {bs : List Byte} (h : commandBytes i = some bs) :
    i = .write 0 bs ∧ bs.length = 4 := by
  cases i with
  | write off b =>
    simp only [commandBytes] at h
    split at h
    · next hc => simp only [Option.some.injEq] at h; subst h; exact ⟨by rw [hc.1], hc.2⟩
    · simp at h
  | read _ _ => simp [commandBytes] at h
  | reset => simp [commandBytes] at h

@[simp] theorem commandBytes_wordBytes (w : Word) : commandBytes (.write 0 (wordBytes w)) = some (wordBytes w) := rfl

@[simp] theorem decodeBytes_wordBytes (w : Word) : decodeBytes (wordBytes w) = decode w := by
  simp [decodeBytes, wordOfBytes_wordBytes]

end Sys2Proof.Machine
end

