-- ==== Sys2Proof/Tests/Slice0.lean ====
section
/-! SUPPORT. Tests: expected results are copied from the spec's tables (`95_test_vectors.md`, named in each comment) or
from the rule files' own examples; then, for every statement that has hypotheses, a state and operands that meet them. -/

namespace Sys2Proof.Tests

open Sys2Proof.Machine

/-! ### Helpers -/

/-- A small state: the header of V1.5, no seed, no key, 32 bytes of buffer memory, nothing written, nothing pending. -/
def base : State where
  hdr := #v[0x88, 0x77, 0x66, 0x55, 0x44, 0x33, 0x22, 0x11, 0x00, 0xFF, 0xEE, 0xDD, 0xCC, 0xBB, 0xAA, 0x99]
  seed := 0
  seedv := false
  key := Vector.replicate 256 0
  keyv := false
  len := 0
  blk := 0
  buf := []
  err := false
  errcode := none
  bufcap := ⟨3⟩
  pending := []
  replies := []
  resets := 0
  draws := 0

/-- A key whose first 64-bit word is given by its two halves; a pass over one block uses no other word. -/
def keyOf (lo hi : Word) : Key := setWord32 (setWord32 (Vector.replicate 256 0) 0 lo) 1 hi

/-- The first word of the key of V2.2 (seed 0xFFCC6688). -/
def keyV22 : Key := keyOf 0x693CEEAB 0xB90885DC

/-- The first word of the key of V2.1 (seed 0). -/
def keyV21 : Key := keyOf 0xEC794845 0x7C499835

/-- A keyed state with the payload written and its length set. -/
def keyed (k : Key) (n : Word) (data : List Byte) : State :=
  ({ base with seedv := true, key := k, keyv := true, len := n } : State).setBufBytes 0 data

/-- The next state, where there is one. -/
def nextOf : Host.Outcome State Fault Refusal → Option State
  | .next t => some t
  | .fault _ => none
  | .refused _ => none

/-- `STATUS` after a write of a command word (the last column of V6). -/
def statusAfter (s : State) (w : Word) : Option Word :=
  (nextOf (step { s with pending := [.write 0 (wordBytes w)] })).map statusWord

/-- The bus's last answer after one input. -/
def answer (s : State) (i : Input) : Option Reply := (nextOf (step { s with pending := [i] })).bind (·.replies.head?)

/-! ### Well-formed words: an ill-formed one for each check -/

theorem test_wf_refuses_reserved_bits : rsvClear 0x00000104 = false ∧ wordWellFormed 0x00000104 = false := by decide

theorem test_wf_refuses_opcode_seven : opcInTable 0x00000007 = false ∧ wordWellFormed 0x00000007 = false := by decide

theorem test_wf_accepts_clr : wordWellFormed 0x00000006 = true ∧ Instr.wellFormed .clr = true := by decide

/-! ### Decoding: each command's word written out from the opcode map (30_encoding.md R72) -/

theorem test_decode_nop : decode 0b00000000000000000000000000000000 = .ok .nop := by decide
theorem test_decode_seedx : decode 0b00000000000000000000000000000001 = .ok .seedx := by decide
theorem test_decode_seedld : decode 0b00000000000000000000000000000010 = .ok .seedld := by decide
theorem test_decode_kexp : decode 0b00000000000000000000000000000011 = .ok .kexp := by decide
theorem test_decode_enc : decode 0b00000000000000000000000000000100 = .ok .enc := by decide
theorem test_decode_dec : decode 0b00000000000000000000000000000101 = .ok .dec := by decide
theorem test_decode_clr : decode 0b00000000000000000000000000000110 = .ok .clr := by decide

/-- The bytes of a command word, lowest address first (R36). -/
theorem test_decode_bytes_little_endian :
    decodeBytes [0x06, 0, 0, 0] = .ok .clr ∧ decodeBytes [0, 0, 0, 0x06] = .error .reservedBits := by decide

/-- R74: the boundary words 7 and 0xFF, `RSV` not 0 with a legal opcode, all ones (V6.11, V6.12, V6.13). -/
theorem test_decode_rejects : decode 0x00000007 = .error .unknownOpcode ∧ decode 0x000000FF = .error .unknownOpcode ∧
    decode 0x00000104 = .error .reservedBits ∧ decode 0xFFFFFFFF = .error .reservedBits ∧
    decodeBytes [0x05, 0, 0] = .error .notFourBytes := by decide

theorem test_decodeTableWord : decodeTableWord 32 5 = some .dec ∧ decodeTableWord 32 7 = none := by decide

/-- Rule R72: no word selects two rows of the opcode map. -/
theorem test_opcode_map_rows_disjoint : opcodeMap.Pairwise (fun r q => r.pattern &&& q.mask ≠ q.pattern &&& r.mask) := by decide

/-! ### Seeds -/

/-- V1.4: only the bytes at indexes 0, 2, 9 and 12 appear. -/
theorem test_seedExtract_V1_4 : seedExtract #v[0x10, 0x11, 0x12, 0x13, 0x14, 0x15, 0x16, 0x17, 0x18, 0x19, 0x1A, 0x1B, 0x1C,
    0x1D, 0x1E, 0x1F] = 0x00000000191C1210 := by decide

/-- V1.5 through the command: `SEED`, `SEEDV`, `KEYV` after SEEDX. -/
theorem test_seedx_V1_5 : (nextOf (exec .seedx base)).map (fun t => (t.seed, t.seedv, t.keyv)) =
    some (0x00000000FFCC6688, true, false) := by decide

/-- V6.17: SEEDX of a keyed state clears `KEYV`. -/
theorem test_seedx_drops_the_key : statusAfter (keyed keyV22 8 []) 0x00000001 = some 0x00000001 := by decide

/-- V1.9: the first eight header bytes, little-endian. -/
theorem test_seedld_V1_9 : (nextOf (exec .seedld base)).map (fun t => (t.seed, t.seedv)) =
    some (0x1122334455667788, true) := by decide

/-! ### Key schedule -/

/-- 41_key_schedule.md R104's example, and step 3 of V2.2. -/
theorem test_firstWords_R104 : (firstWords (Vector.replicate 8 0) 0x0123456789ABCDEF).toList =
    [0xCD, 0xEF, 0x89, 0xAB, 0x67, 0x01, 0x23, 0x45] := by decide

theorem test_mixBytes_V2_2 : (mixBytes (firstWords (Vector.replicate 8 0) 0xFFCC6688) 7 (by omega)).toList =
    [0xAB, 0xEE, 0x3C, 0x69, 0xDC, 0x85, 0x08, 0xB9] := by decide

/-- V2.1: words 1 and 2 of the key of seed 0, into a store just long enough. -/
theorem test_expand_V2_1 : word64 (expandInto (Vector.replicate 24 0) 2 0) 1 = 0x6D6FF90D9E5E6959 ∧
    word64 (expandInto (Vector.replicate 24 0) 2 0) 2 = 0x232FDD4417D80EBD := by decide

/-- V6.3 and V6.5: KEXP of a seeded state, and without a seed. -/
theorem test_kexp_status : statusAfter { base with seedv := true } 0x00000003 = some 0x00000003 ∧
    statusAfter base 0x00000003 = some 0x00000304 := by decide

set_option maxRecDepth 8000 in
/-- V2.2: bytes 0 and 15 of `KEY` after KEXP on seed 0xFFCC6688, whatever `KEY` held. -/
theorem test_kexp_key_bytes : (nextOf (exec .kexp { base with seed := 0xFFCC6688, seedv := true, key := keyV21 })).map
    (fun t => (t.key[0], t.key[15], t.keyv, t.seedv)) = some (0xAB, 0x9D, true, true) := by decide

/-! ### Block cipher -/

/-- V3.5, V3.10, V3.12, V3.14. -/
theorem test_bkey : bkey 0x20 = 0x00000040B1692447 ∧ bkey 0x80000 = 0x00100400A1A52347 ∧
    bkey 0x20000000 = 0x40100000A1652347 ∧ bkey 0xFFFFFFFF = 0x00000000A165233F := by decide

/-- The reading D19 rejects (the last column of V3.10, V3.11), and the two readings of `byte(blk)` below 256 (D18). -/
theorem test_other_readings : bkeyOf (indexTermWide 0x80000) 0x80000 = 0x00100401A1A52347 ∧
    bkeyOf (indexTermWide 0x400000) 0x400000 = 0x00802008A3652347 ∧ blkByteSaturated 0xFF = blkByteLow 0xFF := by decide

/-- V4.13: RoundDec, DecBlock, FinalEnc and EncBlock of 01 02 ... 08 under the key of V2.2, block 0. -/
theorem test_round_V4_13 : (roundDec keyV22 0 #v[1, 2, 3, 4, 5, 6, 7, 8]).toList =
    [0xA4, 0x63, 0x61, 0x67, 0x61, 0x63, 0x61, 0x6F] := by decide

theorem test_blocks_V4_13 :
    (decBlock keyV22 0 #v[1, 2, 3, 4, 5, 6, 7, 8]).toList = [0x58, 0x58, 0x50, 0x0F, 0x15, 0xB9, 0x7D, 0x36] ∧
    (finalEnc keyV22 0 #v[1, 2, 3, 4, 5, 6, 7, 8]).toList = [0x94, 0xBA, 0x9B, 0x29, 0xBA, 0x0D, 0x14, 0x76] ∧
    (encBlock keyV22 0 #v[1, 2, 3, 4, 5, 6, 7, 8]).toList = [0x71, 0x2B, 0x10, 0xD9, 0x83, 0x2E, 0x9A, 0x8C] := by decide

/-- V4.9: block index 0x80000, which uses key word 0 and depends on decision D19. -/
theorem test_blocks_V4_9 : (decBlock keyV21 0x80000 #v[1, 2, 3, 4, 5, 6, 7, 8]).toList =
    [0x32, 0x3B, 0xAA, 0xB2, 0x39, 0x9C, 0x1F, 0x1B] := by decide

/-- V4.8: block index 256, the same start of the chain as block 0 (decision D18). -/
theorem test_blocks_V4_8 : (encBlock keyV21 0x100 #v[1, 2, 3, 4, 5, 6, 7, 8]).toList =
    [0x55, 0x24, 0x1C, 0x6A, 0x45, 0xB1, 0xE9, 0x51] := by decide

/-- P1: DEC of eight zero bytes under the key of V2.2, with `BLK`, the flags and a byte above `LEN`. -/
theorem test_dec_P1 : (nextOf (exec .dec (keyed keyV22 8 [0, 0, 0, 0, 0, 0, 0, 0, 0x99]))).map
    (fun t => (payload t 9, t.blk, statusWord t)) =
    some ([0x5F, 0x5F, 0x5F, 0x1E, 0x16, 0xBC, 0x7A, 0x3F, 0x99], 1, 0) := by decide

/-- P4's last read: ENC of 01 02 ... 08 under the key of V2.1 (V4.4). -/
theorem test_enc_P4 : (nextOf (exec .enc (keyed keyV21 8 [1, 2, 3, 4, 5, 6, 7, 8]))).map
    (fun t => (payload t 8, t.blk, t.seedv, t.keyv)) =
    some ([0x55, 0x2C, 0x74, 0x81, 0xAF, 0x59, 0x01, 0xB9], 1, false, false) := by decide

/-! ### Faults and control (V6) -/

/-- V6.8, V6.9 (`BUFCAP` + 8), V6.6, V6.10. -/
theorem test_cipher_faults : statusAfter (keyed keyV22 12 []) 0x00000004 = some 0x00000107 ∧
    statusAfter (keyed keyV22 40 []) 0x00000005 = some 0x00000107 ∧
    statusAfter { base with len := 8 } 0x00000004 = some 0x00000404 ∧
    statusAfter { base with len := 12 } 0x00000004 = some 0x00000404 := by decide

/-- V6.11, V6.12, V6.15: illegal words. -/
theorem test_illegal_words : statusAfter base 0x00000007 = some 0x00000204 ∧
    statusAfter (keyed keyV22 8 []) 0x00000104 = some 0x00000207 ∧
    statusAfter (raise .malformed (keyed keyV22 8 [])) 0x00000007 = some 0x00000107 := by decide

/-- V6.14, V6.16: with `ERR` = 1 a DEC is ignored and CLR clears. -/
theorem test_error_state : statusAfter (raise .malformed (keyed keyV22 8 [])) 0x00000005 = some 0x00000107 ∧
    statusAfter (raise .malformed (keyed keyV22 8 [])) 0x00000006 = some 0x00000000 := by decide

theorem test_clr_keeps_len_and_header : (nextOf (exec .clr (raise .nokey (keyed keyV22 8 [])))).map
    (fun t => (t.len, t.blk, t.hdr, t.errcode)) = some (8, 0, base.hdr, none) := by decide

/-- V6.1. -/
theorem test_nop : statusAfter base 0x00000000 = some 0x00000000 := by decide

/-- A placed word runs as the first command after reset: ENC without a key is NOKEY (P5). -/
theorem test_first_command_after_reset :
    (nextOf (step (State.reset.withFetchWord 32 4))).map statusWord = some 0x00000404 := by decide

theorem test_reset_memory_wf : Memory.wf State.reset.buf = true := by decide

/-! ### The window -/

/-- R33: reads of CMD, STATUS and HDR (P1's writes of HDR seen as words). -/
theorem test_window_reads : answer base (.read 0x000 4) = some (.data [0, 0, 0, 0]) ∧
    answer (raise .malformed (keyed keyV22 8 [])) (.read 0x004 4) = some (.data [0x07, 0x01, 0, 0]) ∧
    answer base (.read 0x028 4) = some (.data [0x00, 0xFF, 0xEE, 0xDD]) := by decide

/-- R37: a reserved offset, a wrong size, a misaligned access, one that crosses its window, a read-only place. -/
theorem test_window_refuses : answer base (.write 0x018 [0, 0, 0, 0]) = some (.refusedWrite .reservedOffset) ∧
    answer base (.write 0x000 [5]) = some (.refusedWrite .badSize) ∧
    answer base (.write 0x1001 [1, 2]) = some (.refusedWrite .misaligned) ∧
    answer base (.write 0x101C [1, 2, 3, 4, 5, 6, 7, 8]) = some (.refusedWrite .crossesWindow) ∧
    answer base (.write 0x1020 [1]) = some (.refusedWrite .reservedOffset) ∧
    answer base (.write 0x00C [1, 0, 0, 0]) = some (.refusedWrite .readOnly) := by decide

/-- P4: `WR LEN, 12` is the write of 0x0000000C at 0x008. -/
theorem test_write_len : (nextOf (step { base with pending := [wrLen 12] })).map (·.len) = some 12 := by decide

/-- R36: a four-byte write of BUF puts the least significant byte lowest. -/
theorem test_write_buf : (nextOf (step { base with pending := [.write 0x1004 [0xA, 0xB, 0xC, 0xD]] })).map (·.buf) =
    some [(4, 0xA), (5, 0xB), (6, 0xC), (7, 0xD)] := by decide

/-- The canonical form: a byte written below and a byte written again. -/
theorem test_memory_order : Memory.write (Memory.write [(4, 1)] 2 7) 4 9 = [(2, 7), (4, 9)] := by decide

/-! ### The host's side -/

/-- R161: the two tags as bytes, and their complement. -/
theorem test_tags : wordBytes encryptedTag = [0x78, 0x34, 0xE0, 0x1D] ∧ wordBytes decryptedTag = [0x87, 0xCB, 0x1F, 0xE2] ∧
    encryptedTag ^^^ decryptedTag = 0xFFFFFFFF := by decide

/-- The record of R171: `SizeBE` = 00 00 00 08, so a body of 8 bytes and a record size of 24. -/
theorem test_record_size : bodyLength (parseHeader (headBytes 32 (List.replicate 19 0 ++ [8]))) = 8 ∧
    recordSize (parseHeader (headBytes 32 (List.replicate 19 0 ++ [8]))) = 24 := by decide

/-- Logs 18 and 20: a record one byte short of its tag, and a script one byte short of its prefix. -/
theorem test_too_short : containerDecrypt 32 (List.replicate 23 0) = .error .malformedInput ∧
    scriptDecrypt (List.replicate 7 0) = .error .malformedInput := by decide

/-- R95, the source's own pattern, at X = 12, Y = 34, Z = 56 (V1.1). -/
theorem test_seedExtract_V1_1 : seedExtract #v[0, 0, 0x12, 0, 0, 0, 0, 0, 0, 0x34, 0, 0, 0x56, 0, 0, 0] =
    0x0000000034561200 := by decide

/-! ### Witnesses: the hypotheses of each statement are met together, clause by clause at a boundary -/

/-- `base` with one input pending. -/
def withInput (s : State) (i : Input) : State := { s with pending := [i] }

/-- A state that waits in a fault. -/
def failed : State := raise .malformed (keyed keyV22 8 [])

/-- A keyed state whose length is exactly the capacity. -/
def full : State := keyed keyV22 32 []

theorem witness_OnlyItsEncodingDecodesToACommand : Instr.wellFormed .dec = true ∧ decodeBytes (encodeBytes .dec) = .ok .dec := by
  decide

theorem witness_StepRunsTheDecodedCommand : (withInput base (.write 0 [5, 0, 0, 0])).pending = .write 0 [5, 0, 0, 0] :: [] ∧
    decodeBytes [5, 0, 0, 0] = .ok .dec ∧ Instr.wellFormed .dec = true := by decide

theorem witness_NothingPendingNothingChanges : base.pending = [] := by decide

theorem witness_CommandWriteFollowsTheCheckOrder_error : failed.err = true ∧
    (withInput failed (.write 0 (wordBytes 7))).pending = .write 0 (wordBytes 7) :: [] ∧ (7 : Word) ≠ 6 := by decide

theorem witness_CommandWriteFollowsTheCheckOrder_illegal : base.err = false ∧ 6 < (7 : Word).toNat ∧
    (withInput base (.write 0 (wordBytes 7))).pending = .write 0 (wordBytes 7) :: [] := by decide

theorem witness_CommandWriteFollowsTheCheckOrder_sequencing : base.err = false ∧ base.seedv = false ∧ base.keyv = false ∧
    (withInput base (.write 0 (wordBytes 3))).pending = .write 0 (wordBytes 3) :: [] ∧
    (withInput base (.write 0 (wordBytes 4))).pending = .write 0 (wordBytes 4) :: [] := by decide

/-- One above the capacity in blocks (40 of 32 bytes), and a length of 12, no multiple of 8. -/
theorem witness_CommandWriteFollowsTheCheckOrder_badLength : (keyed keyV22 40 []).err = false ∧
    (keyed keyV22 40 []).keyv = true ∧ (keyed keyV22 40 []).bufcap.bytes < (keyed keyV22 40 []).len.toNat ∧
    (keyed keyV22 12 []).len.toNat % 8 ≠ 0 := by decide

/-- The largest length that passes, the capacity itself, and length 0. -/
theorem witness_EncEncryptsTheBuffer : CipherReady full ∧ CipherReady (keyed keyV22 0 []) :=
  ⟨⟨by decide, by decide, by decide, by decide⟩, ⟨by decide, by decide, by decide, by decide⟩⟩

theorem witness_EncEncryptsTheBuffer_faults : failed.err = true ∧ base.err = false ∧ base.keyv = false ∧
    (keyed keyV22 12 []).err = false ∧ (keyed keyV22 12 []).keyv = true ∧ (keyed keyV22 12 []).len.toNat % 8 ≠ 0 := by decide

theorem witness_DecDecryptsTheBuffer : CipherReady full ∧ failed.err = true ∧ base.err = false ∧ base.keyv = false ∧
    (keyed keyV22 40 []).err = false ∧ (keyed keyV22 40 []).keyv = true ∧
    (keyed keyV22 40 []).bufcap.bytes < (keyed keyV22 40 []).len.toNat :=
  ⟨witness_EncEncryptsTheBuffer.1, by decide⟩

theorem witness_CommandWriteFollowsTheCheckOrder_executes :
    (withInput full (.write 0 (wordBytes 5))).pending = .write 0 (wordBytes 5) :: [] ∧ full.err = false ∧ full.keyv = true ∧
    ¬ (full.len.toNat % 8 ≠ 0 ∨ full.bufcap.bytes < full.len.toNat) := by decide

theorem witness_ErrorBlocksAllButClrAndTheWindow : failed.err = true ∧
    (withInput failed (.write 0 (wordBytes 5))).pending = .write 0 (wordBytes 5) :: [] ∧ (5 : Word) ≠ 6 ∧
    (withInput failed (.write 0x1000 [1])).pending = .write 0x1000 [1] :: [] ∧ commandBytes (.write 0x1000 [1]) = none ∧
    (withInput failed (.read 0x008 4)).pending = .read 0x008 4 :: [] ∧ (0x008 : Nat) ≠ 0x004 := by decide

theorem witness_StatusLayoutAndReadOnly : (withInput base (.read 0x004 4)).pending = .read 0x004 4 :: [] ∧
    (withInput base (.write 0x004 [1, 2, 3, 4])).pending = .write 0x004 [1, 2, 3, 4] :: [] ∧
    ([1, 2, 3, 4] : List Byte).length = 4 ∧ ((3 ≤ 7 ∧ 7 ≤ 7) ∨ 12 ≤ 7) := by decide

/-- The window's edges: the last byte of BUF is taken, the next is reserved; the last eight of KEY. -/
theorem witness_WindowTakesExactlyTheAllowedAccesses : access 32 0x101F 1 = .ok (.buf, 31) ∧
    access 32 0x1020 1 = .error .reservedOffset ∧ access 32 0x1F8 8 = .ok (.key, 248) ∧
    access 32 0x02F 1 = .ok (.hdr, 15) ∧ access 32 0x014 4 = .ok (.seedHi, 0) ∧ access 32 0x018 4 = .error .reservedOffset := by decide

theorem witness_RefusedAccessesChangeNothing :
    (withInput base (.write 0x018 [1, 2, 3, 4])).pending = .write 0x018 [1, 2, 3, 4] :: [] ∧
    access base.bufcap.bytes 0x018 4 = .error .reservedOffset ∧
    (withInput base (.read 0x1020 1)).pending = .read 0x1020 1 :: [] ∧
    access base.bufcap.bytes 0x1020 1 = .error .reservedOffset ∧
    (withInput base (.write 0x1F8 [0, 0, 0, 0, 0, 0, 0, 0])).pending = .write 0x1F8 [0, 0, 0, 0, 0, 0, 0, 0] :: [] ∧
    access base.bufcap.bytes 0x1F8 8 = .ok (.key, 248) := by decide

theorem witness_HostReadsHaveNoSideEffect : (withInput base (.read 0x003 5)).pending = .read 0x003 5 :: [] := by decide

theorem witness_SeedAndKeyReadOnlyWhileValid : (withInput base (.read 0x010 4)).pending = .read 0x010 4 :: [] ∧
    base.seedv = false ∧ (withInput full (.read 0x014 4)).pending = .read 0x014 4 :: [] ∧ full.seedv = true ∧
    (withInput full (.read (0x100 + 248) 8)).pending = .read (0x100 + 248) 8 :: [] ∧ full.keyv = true ∧
    248 % 8 = 0 ∧ 248 + 8 ≤ 256 := by decide

theorem witness_OtherReadsGiveTheStoredValue : (withInput base (.read (0x020 + 8) 8)).pending = .read (0x020 + 8) 8 :: [] ∧
    8 % 8 = 0 ∧ 8 + 8 ≤ 16 ∧ (withInput base (.read (0x1000 + 31) 1)).pending = .read (0x1000 + 31) 1 :: [] ∧
    31 % 1 = 0 ∧ 31 + 1 ≤ base.bufcap.bytes ∧ (withInput base (.read 0x000 4)).pending = .read 0x000 4 :: [] ∧
    (withInput base (.read 0x008 4)).pending = .read 0x008 4 :: [] ∧
    (withInput base (.read 0x00C 4)).pending = .read 0x00C 4 :: [] := by decide

theorem witness_HostWriteSetsTheLength :
    (withInput base (.write 0x008 (wordBytes 0xFFFFFFFF))).pending = .write 0x008 (wordBytes 0xFFFFFFFF) :: [] := by decide

theorem witness_HostWriteStoresHeaderBytes : (withInput base (.write (0x020 + 14) [1, 2])).pending = .write (0x020 + 14) [1, 2] :: [] ∧
    ([1, 2] : List Byte).length = 2 ∧ 14 % 2 = 0 ∧ 14 + 2 ≤ 16 := by decide

theorem witness_HostWriteStoresBufferBytes :
    (withInput base (.write (0x1000 + 28) [1, 2, 3, 4])).pending = .write (0x1000 + 28) [1, 2, 3, 4] :: [] ∧
    ([1, 2, 3, 4] : List Byte).length = 4 ∧ 28 % 4 = 0 ∧ 28 + 4 ≤ base.bufcap.bytes := by decide

theorem witness_BufferPrimitivesReadAndWriteBytes : 7 < 8 ∧ (15 < 16 ∨ 16 + 8 ≤ 15) ∧ (24 < 16 ∨ 16 + 8 ≤ 24) := by decide

/-- A length one byte off stops the command; block 3 is the last of the 32 bytes that fill the capacity. -/
theorem witness_BufferPrimitivesReadAndWriteBytes_checks : ¬ CipherReady (keyed keyV22 31 []) ∧ ¬ CipherReady failed ∧
    CipherReady full ∧ (3 : Word).toNat < full.len.toNat / 8 := by
  refine ⟨fun h => absurd h.2.2.1 (by decide), fun h => absurd h.1 (by decide), witness_EncEncryptsTheBuffer.1, by decide⟩

theorem witness_ViewsShareOneStore : (62 : Fin 64) ≠ 63 := by decide

theorem witness_SeedxLoadsTheSelectedBytes : failed.err = true ∧ base.err = false := by decide

theorem witness_SeedldLoadsTheLittleEndianPrefix : failed.err = true ∧ (keyed keyV22 8 []).err = false := by decide

/-- Two headers that differ in a byte not selected and agree on the four that are. -/
theorem witness_SeedExtractSumsFourBytes : ∃ h g : Hdr, h ≠ g ∧ h[0] = g[0] ∧ h[2] = g[2] ∧ h[9] = g[9] ∧ h[12] = g[12] :=
  ⟨base.hdr, base.hdr.set 1 0, by decide⟩

theorem witness_KexpExpandsTheSeed : failed.err = true ∧ base.err = false ∧ base.seedv = false ∧
    (keyed keyV22 8 []).err = false ∧ (keyed keyV22 8 []).seedv = true := by decide

theorem witness_KeyScheduleForgetsTheOldStore : 8 * 31 + 8 ≤ 256 ∧ 255 < 8 * 31 + 8 := by decide

theorem witness_MixingChainsBytesZeroToSeven : (∀ x : Fin 8, (Vector.replicate 256 (0 : Byte))[x.val] = 0) ∧
    8 ≤ (8 : Fin 256).val := ⟨by simp, by decide⟩

theorem witness_ExpansionWritesOnlyTheNewPair : (239 : Fin 256).val / 8 ≠ (30 : Fin 31).val + 1 := by decide

theorem witness_SeedToFirstKeyWordIsABijection : (0 : DWord) ≠ 1 := by decide

theorem witness_BufferRoundTrip : (List.replicate 24 (7 : Byte)).length % 8 = 0 := by decide

theorem witness_BlockKeyValues : (0x3FF : Word).toNat < 2 ^ 10 ∧ (0x7FFFF : Word).toNat < 2 ^ 19 := by decide

/-- V5.4's two plaintexts: they differ in byte 8 and agree on block 0; and two blocks that agree on bytes 4 to 7. -/
theorem witness_BlocksAreIndependent :
    (List.replicate 16 (0 : Byte)).length = (List.replicate 8 (0 : Byte) ++ [1, 0, 0, 0, 0, 0, 0, 0]).length ∧
    (List.replicate 16 (0 : Byte)).length % 8 = 0 ∧
    ((List.replicate 16 (0 : Byte)).drop (8 * 0)).take 8 =
      ((List.replicate 8 (0 : Byte) ++ [1, 0, 0, 0, 0, 0, 0, 0]).drop (8 * 0)).take 8 ∧
    (#v[0, 0, 0, 0, 5, 6, 7, 8] : Block)[4] = (#v[1, 0, 0, 0, 5, 6, 7, 8] : Block)[4] ∧
    (#v[0, 0, 0, 0, 5, 6, 7, 8] : Block)[7] = (#v[1, 0, 0, 0, 5, 6, 7, 8] : Block)[7] ∧
    (∀ i : Fin 8, i ≤ 3 → (swapHalves #v[0, 0, 0, 0, 5, 6, 7, 8])[i] = (swapHalves #v[1, 0, 0, 0, 5, 6, 7, 8])[i]) := by decide

theorem witness_BufferBlocksInIndexOrder : (List.replicate 16 (3 : Byte)).length % 8 = 0 ∧
    8 * 1 < (List.replicate 16 (3 : Byte)).length ∧
    ((List.replicate 16 (3 : Byte)).drop (8 * 1)).take 8 = (Vector.replicate 8 (3 : Byte)).toList := by decide

/-- Bytes of BUF at `LEN` and above differ, the first `LEN` agree; both states run. -/
theorem witness_CipherCommandsTouchOnlyThePayload :
    (∃ t, exec .dec (keyed keyV22 8 [1, 2, 3, 4, 5, 6, 7, 8]) = .next t) ∧
    (∃ t, exec .dec { keyed keyV22 8 [1, 2, 3, 4, 5, 6, 7, 8] with
      buf := Memory.write (keyed keyV22 8 [1, 2, 3, 4, 5, 6, 7, 8]).buf 8 0x99 } = .next t) ∧
    (∀ a : Fin 8, ({ keyed keyV22 8 [1, 2, 3, 4, 5, 6, 7, 8] with
      buf := Memory.write (keyed keyV22 8 [1, 2, 3, 4, 5, 6, 7, 8]).buf 8 0x99 } : State).bufByte a.val =
        (keyed keyV22 8 [1, 2, 3, 4, 5, 6, 7, 8]).bufByte a.val) ∧
    (keyed keyV22 8 [1, 2, 3, 4, 5, 6, 7, 8]).len.toNat = 8 := ⟨⟨_, rfl⟩, ⟨_, rfl⟩, by decide, by decide⟩

theorem witness_RoundTripThroughTheCommands : base.err = false ∧ ({ base with len := 32 } : State).len.toNat % 8 = 0 ∧
    ({ base with len := 32 } : State).len.toNat ≤ base.bufcap.bytes := by decide

theorem witness_FaultEntryRecordsOnlyTheCode : base.err = false ∧ ∃ t, exec .kexp base = .next t ∧ t.err = true :=
  ⟨by decide, _, rfl, by decide⟩

theorem witness_CommandsKeepHostRegisters : (∃ t, exec .enc full = .next t) ∧ (∃ t, exec .seedld base = .next t) ∧
    failed.err = true := ⟨⟨_, rfl⟩, ⟨_, rfl⟩, by decide⟩

theorem witness_PhasesFollowTheTable : base.err = false ∧ base.errcode = none ∧ phase base = .idle ∧ phase full = .keyed ∧
    full.errcode = none ∧ phase { base with seedv := true } = .seeded ∧ failed.err = true ∧
    ∃ t, step (withInput full (.write 0 (wordBytes 5))) = .next t :=
  ⟨by decide, by decide, by decide, by decide, by decide, by decide, by decide, _, rfl⟩

theorem witness_BlkIsNoInput : (∃ t, exec .enc full = .next t) ∧ CipherReady full :=
  ⟨⟨_, rfl⟩, witness_EncEncryptsTheBuffer.1⟩

/-- Two states that differ in the bits of an invalid seed and an invalid key, about to read the seed. -/
theorem witness_UndefinedBitsNeverMatter :
    AgreeOnDefined (withInput base (.read 0x010 4)) { withInput base (.read 0x010 4) with seed := 5, key := keyV22 } ∧
    ∃ t, step (withInput base (.read 0x010 4)) = .next t :=
  ⟨⟨rfl, by decide, by decide⟩, _, rfl⟩

theorem witness_StepKeepsTheInvariant : Inv (withInput base (.write 0 (wordBytes 2))) ∧
    ∃ t, step (withInput base (.write 0 (wordBytes 2))) = .next t :=
  ⟨⟨fun h => absurd h (by decide), by rw [ErrInv]; decide, ⟨by decide, by decide⟩, by rw [BlkInv]; decide⟩, _, rfl⟩

theorem witness_ResetClearsTheFlags : (withInput failed .reset).pending = .reset :: [] := by decide

theorem witness_CapacityIsLegalAndFixed : 8 % 8 = 0 ∧ 8 ≤ 8 ∧ (2 ^ 32 - 8) % 8 = 0 ∧ 2 ^ 32 - 8 ≤ 2 ^ 32 - 8 ∧
    base.bufcap.bytes = 32 ∧ ∃ t, step base = .next t := ⟨by decide, by decide, by decide, by decide, by decide, _, rfl⟩

/-- Records with the decrypted tag at bytes 20 to 23: a whole 32-byte header (R164), and the shortest that holds a tag
(the model's choice, log 20). -/
theorem witness_UnencryptedContainerIsLeftAlone :
    24 ≤ (List.replicate 20 (0 : Byte) ++ [0x87, 0xCB, 0x1F, 0xE2] ++ List.replicate 8 0).length ∧
    (parseHeader (headBytes 32 (List.replicate 20 0 ++ [0x87, 0xCB, 0x1F, 0xE2] ++ List.replicate 8 0))).tag ≠ 0x1DE03478 ∧
    24 ≤ (List.replicate 20 (0 : Byte) ++ [0x87, 0xCB, 0x1F, 0xE2]).length ∧
    (parseHeader (headBytes 32 (List.replicate 20 0 ++ [0x87, 0xCB, 0x1F, 0xE2]))).tag ≠ 0x1DE03478 := by decide

theorem witness_ScriptRoundTrip : 8 ≤ (List.replicate 24 (1 : Byte)).length ∧ ((List.replicate 24 (1 : Byte)).length - 8) % 8 = 0 := by
  decide

end Sys2Proof.Tests
end

/-! PROOF. The statements on the scope of the model (`00_scope.md`): the step that runs a command (rules R15, R16),
and the capacity, which no step changes (rule R10). -/

namespace Sys2Proof.Machine

/-! ### A command word at the window -/

theorem length_of_wordOfBytes_eq_some {bs : List Byte} {w : Word} (h : wordOfBytes bs = some w) : bs.length = 4 := by
  unfold wordOfBytes at h
  split at h
  · rfl
  · cases h

/-- Every command is 32 bits long (rule R71). -/
theorem length_of_decodeBytes_eq_ok {bs : List Byte} {c : Instr} (h : decodeBytes bs = .ok c) : bs.length = 4 := by
  unfold decodeBytes at h
  split at h
  · next w hw => exact length_of_wordOfBytes_eq_some hw
  · cases h

theorem commandBytes_write_cmd {bs : List Byte} (h : bs.length = 4) : commandBytes (.write 0 bs) = some bs := by
  simp [commandBytes, h]

/-- A command write at the head of the inputs: the step is the command, on the state with the write accepted. -/
theorem step_of_command {s : State} {bs : List Byte} {rest : List Input} {c : Instr}
    (hp : s.pending = .write 0 bs :: rest) (hd : decodeBytes bs = .ok c) : step s = exec c (acceptCommand rest s) := by
  have hc := commandBytes_write_cmd (length_of_decodeBytes_eq_ok hd)
  simp only [step, hp, hc, hd]

@[simp] theorem decodeBytes_encodeBytes (c : Instr) : decodeBytes (encodeBytes c) = .ok c := by
  cases c with
  | nop => exact Laws.DecodesBack.nop.2
  | seedx => exact Laws.DecodesBack.seedx.2
  | seedld => exact Laws.DecodesBack.seedld.2
  | kexp => exact Laws.DecodesBack.kexp.2
  | enc => exact Laws.DecodesBack.enc.2
  | dec => exact Laws.DecodesBack.dec.2
  | clr => exact Laws.DecodesBack.clr.2

@[simp] theorem tableWord_toNat (w : Word) : tableWord 32 w.toNat = w := by
  simp [tableWord, Nat.mod_eq_of_lt w.isLt]

@[simp] theorem withFetchWord_encode_pending (s : State) (c : Instr) :
    (s.withFetchWord 32 (encode c).toNat).pending = .write 0 (encodeBytes c) :: s.pending := by
  simp [State.withFetchWord, encodeBytes]

/-! ### What leaves the capacity alone -/

theorem unlessError_bufcap {s k : State} (h : k.bufcap = s.bufcap) : (unlessError s k).bufcap = s.bufcap := by
  cases he : s.err <;> simp [he, h]

@[simp] theorem illegalCommand_bufcap (s : State) : (illegalCommand s).bufcap = s.bufcap :=
  unlessError_bufcap (raise_bufcap s .illcmd)

@[simp] theorem cipherPass_bufcap (f : Key → Word → Block → Block) (s : State) : (cipherPass f s).bufcap = s.bufcap := by
  simp [cipherPass]

@[simp] theorem cipherCommand_bufcap (f : Key → Word → Block → Block) (s : State) :
    (cipherCommand f s).bufcap = s.bufcap := by
  obtain ⟨-, h⟩ | ⟨-, -, h⟩ | ⟨-, -, -, h⟩ | ⟨-, -, -, h⟩ := cipherCommand_cases f s <;> simp [h]

/-- No command changes the capacity. -/
theorem exec_bufcap {c : Instr} {s t : State} (h : exec c s = .next t) : t.bufcap = s.bufcap := by
  cases c with
  | nop => cases h; rfl
  | seedx => cases h; exact unlessError_bufcap (loadSeed_bufcap ..)
  | seedld => cases h; exact unlessError_bufcap (loadSeed_bufcap ..)
  | kexp =>
    cases h
    apply unlessError_bufcap
    split
    · exact loadKey_bufcap ..
    · exact raise_bufcap ..
  | enc => cases h; exact cipherCommand_bufcap ..
  | dec => cases h; exact cipherCommand_bufcap ..
  | clr => cases h; rfl

@[simp] theorem hostRead_bufcap (off n : Nat) (s : State) : (hostRead off n s).bufcap = s.bufcap := by
  obtain ⟨_, -, h⟩ | ⟨_, _, -, -, h⟩ | ⟨_, _, -, -, h⟩ := hostRead_cases off n s <;> simp [h]

theorem writeLoc_bufcap {l : Loc} {i : Nat} {bs : List Byte} {s t : State} (h : writeLoc l i bs s = some t) :
    t.bufcap = s.bufcap := by
  obtain rfl | ⟨_, rfl⟩ | rfl | ⟨-, rfl⟩ := writeLoc_cases h <;> simp

@[simp] theorem hostWrite_bufcap (off : Nat) (bs : List Byte) (s : State) : (hostWrite off bs s).bufcap = s.bufcap := by
  obtain ⟨_, h⟩ | ⟨_, _, _, -, hw, h⟩ := hostWrite_cases off bs s
  · simp [h]
  · simp [h, writeLoc_bufcap hw]

/-- No host access changes the capacity, and reset keeps it (log 9). -/
@[simp] theorem applyInput_bufcap (i : Input) (s : State) : (applyInput i s).bufcap = s.bufcap := by
  cases i with
  | write off bs => exact hostWrite_bufcap off bs s
  | read off n => exact hostRead_bufcap off n s
  | reset => rfl

theorem step_bufcap {s t : State} (h : step s = .next t) : t.bufcap = s.bufcap := by
  obtain ⟨-, hs⟩ | ⟨i, rest, -, -, hs⟩ | ⟨_, rest, _, _, -, -, -, hs⟩ | ⟨_, rest, _, _, -, -, -, hs⟩ := step_cases s
  · cases hs.symm.trans h; rfl
  · cases hs.symm.trans h; exact applyInput_bufcap i (takeInput rest s)
  · exact exec_bufcap (s := acceptCommand rest s) (hs.symm.trans h)
  · cases hs.symm.trans h; exact illegalCommand_bufcap (acceptCommand rest s)

/-- Every capacity rule R10 allows is that of the block index `n/8 − 1`. -/
theorem BufCap.exists_bytes_eq {n : Nat} (h8 : n % 8 = 0) (hlo : 8 ≤ n) (hhi : n ≤ 2 ^ 32 - 8) :
    ∃ c : BufCap, c.bytes = n := by
  refine ⟨⟨⟨n / 8 - 1, by omega⟩⟩, ?_⟩
  simp only [BufCap.bytes]
  omega

/-! ### The statements -/

/-- Settles O57: the range is the model's field type, and each kind of step keeps the field. -/
theorem capacityIsLegalAndFixed : Obligations.CapacityIsLegalAndFixed :=
  ⟨BufCap.bytes_range, fun _ => BufCap.exists_bytes_eq, fun _ _ => step_bufcap⟩

/-- Settles O4: bytes that decode are four, so the write is a command and the step is `exec`. -/
theorem stepRunsTheDecodedCommand : Obligations.StepRunsTheDecodedCommand :=
  fun _ _ _ _ hp hd _ => step_of_command hp hd

/-- Settles O5: the word placed is the command's encoding, which decodes back to it. -/
theorem placedWordIsTheNextCommand : Obligations.PlacedWordIsTheNextCommand :=
  fun s c => step_of_command (withFetchWord_encode_pending s c) (decodeBytes_encodeBytes c)

end Sys2Proof.Machine

/-! PROOF. The statements on the state and the register window (`10_state.md`): the invariant every step keeps, the bits
of an invalid seed or key that nothing depends on, what the window takes, reads and writes, what each command leaves. -/

namespace Sys2Proof.Machine

/-! ### The key schedule forgets the store it starts from (rule R110) -/

theorem setWord32_setWord32_same {n : Nat} (k : Vector Byte n) (i : Nat) (v w : Word) (h : 4 * i + 4 ≤ n) :
    setWord32 (setWord32 k i v h) i w h = setWord32 k i w h := by
  refine Vector.ext fun x hx => ?_
  simp only [getElem_setWord32]
  split <;> rfl

theorem setWord32_comm {n : Nat} (k : Vector Byte n) {i j : Nat} (v w : Word) (hi : 4 * i + 4 ≤ n) (hj : 4 * j + 4 ≤ n)
    (hne : i ≠ j) : setWord32 (setWord32 k i v hi) j w hj = setWord32 (setWord32 k j w hj) i v hi := by
  refine Vector.ext fun x hx => ?_
  simp only [getElem_setWord32]
  split
  · rw [if_neg (by omega)]
  · rfl

/-- The product `a` of an iteration of step 4, from the two words of the pair before (rule R106). -/
def expandProduct (lo hi : Word) : DWord := 5 * join64 lo hi ^^^ (zext64 hi <<< 32)

/-- The low word an iteration of step 4 leaves, from the two words of the pair before (rule R106). -/
def expandLow (lo hi : Word) : Word :=
  low32 (zext64 lo ||| (expandProduct lo hi &&& 0xFFFFFFFF00000000)) ^^^ (lo ^^^ low32 (expandProduct lo hi))

/-- The high word an iteration of step 4 leaves, from the two words of the pair before (rule R106). -/
def expandHigh (lo hi : Word) : Word := high32 (expandProduct lo hi) ^^^ hi

/-- An iteration of step 4 writes its own two words once each, from the pair before alone. -/
theorem expandStep_eq {n : Nat} (k : Vector Byte n) (it : Nat) (h : 8 * it + 16 ≤ n) :
    expandStep k it h =
      setWord32
        (setWord32 k (2 * it + 2) (expandLow (word32 k (2 * it)) (word32 k (2 * it + 1))))
        (2 * it + 3) (expandHigh (word32 k (2 * it)) (word32 k (2 * it + 1))) := by
  simp (disch := omega) only [expandStep, word32_setWord32_same, word32_setWord32_ne]
  rw [setWord32_comm _ _ _ _ _ (by omega), setWord32_setWord32_same, setWord32_comm _ _ _ _ _ (by omega),
    setWord32_setWord32_same]
  rfl

/-- Two stores agree on every byte below `b`. -/
def AgreeBelow (b : Nat) {n : Nat} (k l : Vector Byte n) : Prop := ∀ (x : Nat) (hx : x < n), x < b → k[x] = l[x]

namespace AgreeBelow

variable {b n : Nat} {k l : Vector Byte n}

theorem word32_eq (h : AgreeBelow b k l) {i : Nat} (hi : 4 * i + 4 ≤ n) (hb : 4 * i + 4 ≤ b) :
    word32 k i hi = word32 l i hi := by
  simp only [word32]
  rw [h (4 * i) _ (by omega), h (4 * i + 1) _ (by omega), h (4 * i + 2) _ (by omega), h (4 * i + 3) _ (by omega)]

/-- The same byte written to both keeps the agreement. -/
theorem set (h : AgreeBelow b k l) {i : Nat} (v : Byte) (hi : i < n) : AgreeBelow b (k.set i v) (l.set i v) := by
  intro x hx hxb
  rw [Vector.getElem_set, Vector.getElem_set, h x hx hxb]

/-- The same word written to both keeps the agreement, and extends it when the word stands right above. -/
theorem setWord32 (h : AgreeBelow b k l) {c i : Nat} {v w : Word} (hv : v = w) (hi : 4 * i + 4 ≤ n) (hb : 4 * i ≤ b)
    (hc : c ≤ max b (4 * i + 4)) : AgreeBelow c (setWord32 k i v hi) (setWord32 l i w hi) := by
  intro x hx hxc
  rw [getElem_setWord32, getElem_setWord32, hv]
  split
  · rfl
  · exact h x hx (by omega)

/-- Step 2 writes bytes 0 to 7 from the seed. -/
theorem firstWords (k l : Vector Byte n) (s : DWord) (h : 8 ≤ n) :
    AgreeBelow 8 (firstWords k s h) (firstWords l s h) := by
  have h0 : AgreeBelow 0 k l := fun _ _ h => absurd h (Nat.not_lt_zero _)
  have h4 := h0.setWord32 (c := 4) (i := 0) (v := rotr32 (bswap32 (loSeed s)) 16) rfl (by omega) (by omega) (by omega)
  exact h4.setWord32 rfl (by omega) (by omega) (by omega)

/-- Step 3 changes bytes below the agreement's end only by bytes below it. -/
theorem mixBytes (h : AgreeBelow b k l) {m : Nat} (hm : m < n) (hb : m < b) :
    AgreeBelow b (mixBytes k m hm) (mixBytes l m hm) := by
  induction m with
  | zero =>
    simp only [Machine.mixBytes]
    rw [h 0 hm hb]
    exact h.set _ hm
  | succ m ih =>
    have ih := ih (by omega) (by omega)
    simp only [Machine.mixBytes]
    rw [ih m (by omega) (by omega), ih (m + 1) hm hb]
    exact ih.set _ hm

/-- An iteration of step 4 writes words `2it+2` and `2it+3` from words `2it` and `2it+1`. -/
theorem expandStep {it : Nat} (h : AgreeBelow (8 * it + 8) k l) (hit : 8 * it + 16 ≤ n) :
    AgreeBelow (8 * it + 16) (expandStep k it hit) (expandStep l it hit) := by
  have hlo := h.word32_eq (i := 2 * it) (by omega) (by omega)
  have hhi := h.word32_eq (i := 2 * it + 1) (by omega) (by omega)
  rw [expandStep_eq, expandStep_eq, hlo, hhi]
  have h1 := h.setWord32 (c := 8 * it + 12) (i := 2 * it + 2)
    (v := expandLow (word32 l (2 * it)) (word32 l (2 * it + 1))) rfl (by omega) (by omega) (by omega)
  exact h1.setWord32 rfl (by omega) (by omega) (by omega)

theorem expandSteps (h : AgreeBelow 8 k l) {m : Nat} (hm : 8 * m + 8 ≤ n) :
    AgreeBelow (8 * m + 8) (expandSteps k m hm) (expandSteps l m hm) := by
  induction m with
  | zero => exact h
  | succ m ih => exact (ih (by omega)).expandStep (by omega)

end AgreeBelow

/-- Each byte the schedule has written after `m` iterations is a function of the seed alone. -/
theorem expandInto_agreeBelow {n : Nat} (k l : Vector Byte n) (m : Nat) (s : DWord) (h : 8 * m + 8 ≤ n) :
    AgreeBelow (8 * m + 8) (expandInto k m s h) (expandInto l m s h) :=
  ((AgreeBelow.firstWords k l s (by omega)).mixBytes (by omega) (by omega)).expandSteps h

theorem keyExpandOver_congr (k l : Key) (s : DWord) : keyExpandOver k s = keyExpandOver l s :=
  Vector.ext fun x hx => expandInto_agreeBelow k l 31 s (by omega) x hx hx

theorem keyExpandOver_eq (k : Key) (s : DWord) : keyExpandOver k s = keyExpand s := keyExpandOver_congr _ _ _

/-! ### What a pass of ENC or DEC leaves alone -/

section
variable (f : Key → Word → Block → Block) (s : State)

@[simp] theorem cipherPass_hdr : (cipherPass f s).hdr = s.hdr := by simp [cipherPass]
@[simp] theorem cipherPass_len : (cipherPass f s).len = s.len := by simp [cipherPass]
@[simp] theorem cipherPass_err : (cipherPass f s).err = s.err := by simp [cipherPass]
@[simp] theorem cipherPass_errcode : (cipherPass f s).errcode = s.errcode := by simp [cipherPass]
@[simp] theorem cipherPass_pending : (cipherPass f s).pending = s.pending := by simp [cipherPass]
@[simp] theorem cipherPass_replies : (cipherPass f s).replies = s.replies := by simp [cipherPass]
@[simp] theorem cipherPass_resets : (cipherPass f s).resets = s.resets := by simp [cipherPass]
@[simp] theorem cipherPass_keyv : (cipherPass f s).keyv = false := rfl

end

/-! ### What a command can do -/

/-- What a command can make of a state, with what is known where it does so (rules R28, R91, R93, R112, R151, R181). -/
inductive CommandEffect (c : Instr) (s : State) : State → Prop where
  | idle (hc : c = .nop) : CommandEffect c s s
  | ignored (hc : c ≠ .clr) (he : s.err = true) : CommandEffect c s s
  | faulted (f : CmdFault) (he : s.err = false) : CommandEffect c s (raise f s)
  | seeded (v : DWord) (hc : c = .seedx ∨ c = .seedld) (he : s.err = false) : CommandEffect c s (loadSeed v s)
  | keyed (hc : c = .kexp) (he : s.err = false) (hv : s.seedv = true) : CommandEffect c s (loadKey (keyExpand s.seed) s)
  | ciphered (f : Key → Word → Block → Block) (hc : c = .enc ∨ c = .dec) (hr : CipherReady s) :
    CommandEffect c s (cipherPass f s)
  | cleared (hc : c = .clr) : CommandEffect c s (ackFault (setBlk 0 (discard s)))

theorem CommandEffect.unlessError {c : Instr} {s k : State} (hc : c ≠ .clr) (h : s.err = false → CommandEffect c s k) :
    CommandEffect c s (unlessError s k) := by
  cases he : s.err with
  | true => rw [unlessError_of_err k he]; exact .ignored hc he
  | false => rw [unlessError_of_ok k he]; exact h he

theorem cipherCommand_effect {c : Instr} (f : Key → Word → Block → Block) (s : State) (hc : c = .enc ∨ c = .dec) :
    CommandEffect c s (cipherCommand f s) := by
  obtain ⟨he, h⟩ | ⟨he, -, h⟩ | ⟨he, -, -, h⟩ | ⟨he, hk, hm, h⟩ := cipherCommand_cases f s <;> rw [h]
  · exact .ignored (by rintro rfl; simp at hc) he
  · exact .faulted _ he
  · exact .faulted _ he
  · exact .ciphered f hc ⟨he, hk, malformedLength_eq_false.mp hm⟩

theorem exec_effect {c : Instr} {s t : State} (h : exec c s = .next t) : CommandEffect c s t := by
  cases c with
  | nop => cases h; exact .idle rfl
  | seedx => cases h; exact .unlessError (by decide) fun he => .seeded _ (.inl rfl) he
  | seedld => cases h; exact .unlessError (by decide) fun he => .seeded _ (.inr rfl) he
  | kexp =>
    cases h
    refine .unlessError (by decide) fun he => ?_
    split
    · next hv => rw [keyExpandOver_eq]; exact .keyed rfl he hv
    · exact .faulted _ he
  | enc => cases h; exact cipherCommand_effect encBlock s (.inl rfl)
  | dec => cases h; exact cipherCommand_effect decBlock s (.inr rfl)
  | clr => cases h; exact .cleared rfl

/-- An illegal word is ILLCMD, or nothing while `ERR` = 1 (rule R183). -/
theorem illegalCommand_cases (s : State) :
    illegalCommand s = s ∨ s.err = false ∧ illegalCommand s = raise .illcmd s := by
  cases he : s.err with
  | true => exact .inl (unlessError_of_err _ he)
  | false => exact .inr ⟨rfl, unlessError_of_ok _ he⟩

/-! ### The invariant of the machine -/

theorem Inv.takeInput {s : State} (rest : List Input) (h : Inv s) : Inv (takeInput rest s) := h

theorem Inv.acceptCommand {s : State} (rest : List Input) (h : Inv s) : Inv (acceptCommand rest s) := h

theorem Inv.raise {s : State} (f : CmdFault) (h : Inv s) : Inv (raise f s) := by
  obtain ⟨hkey, -, hbuf, hblk⟩ := h
  exact ⟨hkey, rfl, hbuf, hblk⟩

theorem Inv.loadSeed {s : State} (v : DWord) (h : Inv s) : Inv (loadSeed v s) := by
  obtain ⟨-, herr, hbuf, hblk⟩ := h
  exact ⟨fun hv => absurd hv (by simp), herr, hbuf, hblk⟩

/-- Rule R25: the key loaded is the expansion of the valid seed. -/
theorem Inv.loadKey {s : State} {k : Key} (hv : s.seedv = true) (hk : k = keyExpand s.seed) (h : Inv s) :
    Inv (loadKey k s) := by
  obtain ⟨-, herr, hbuf, hblk⟩ := h
  exact ⟨fun _ => ⟨hv, hk⟩, herr, hbuf, hblk⟩

/-- A pass that runs has at most `BUFCAP`/8 blocks, so it writes and counts within the capacity (rules R26, R29). -/
theorem Inv.cipherPass {s : State} (f : Key → Word → Block → Block) (hr : CipherReady s) (h : Inv s) :
    Inv (cipherPass f s) := by
  obtain ⟨-, herr, ⟨hwf, hbelow⟩, -⟩ := h
  obtain ⟨-, -, -, hlen⟩ := hr
  have hn : s.len.toNat / 8 < 2 ^ 32 := by omega
  refine ⟨fun hv => absurd hv (by simp), by simpa [ErrInv] using herr, ⟨?_, ?_⟩, ?_⟩
  · exact cipherSteps_wf f _ (setBlk 0 s) hwf
  · rw [cipherPass_bufcap]
    exact cipherSteps_below f _ _ (setBlk 0 s) hn rfl (by omega) hbelow
  · have hblk := cipherSteps_blockAddr f _ (setBlk 0 s) hn rfl
    rw [BlkInv, cipherPass_bufcap]
    exact hblk.trans_le (by omega)

theorem Inv.clear {s : State} (h : Inv s) : Inv (ackFault (setBlk 0 (discard s))) := by
  obtain ⟨-, -, hbuf, -⟩ := h
  exact ⟨fun hv => absurd hv (by simp), rfl, hbuf, Nat.zero_le _⟩

theorem Inv.exec {c : Instr} {s t : State} (h : Inv s) (ht : exec c s = .next t) : Inv t := by
  cases exec_effect ht with
  | idle | ignored => exact h
  | faulted f => exact h.raise f
  | seeded v => exact h.loadSeed v
  | keyed _ _ hv => exact h.loadKey hv rfl
  | ciphered f _ hr => exact h.cipherPass f hr
  | cleared => exact h.clear

theorem Inv.illegalCommand {s : State} (h : Inv s) : Inv (illegalCommand s) := by
  obtain hs | ⟨-, hs⟩ := illegalCommand_cases s
  · rwa [hs]
  · rw [hs]; exact h.raise _

theorem Inv.setHdrBytes {s : State} (i : Nat) (bs : List Byte) (h : Inv s) : Inv (s.setHdrBytes i bs) := by
  simpa [Inv, KeyInv, ErrInv, BufInv, BlkInv] using h

theorem Inv.setBufBytes {s : State} {i : Nat} {bs : List Byte} (hi : i + bs.length ≤ s.bufcap.bytes) (h : Inv s) :
    Inv (s.setBufBytes i bs) := by
  obtain ⟨hkey, herr, ⟨hwf, hbelow⟩, hblk⟩ := h
  have hbelow' : Memory.below (s.setBufBytes i bs).bufcap.bytes (s.setBufBytes i bs).buf = true := by
    rw [State.setBufBytes_bufcap]
    exact setBufBytes_below s i _ bs hi hbelow
  exact ⟨by simpa [KeyInv] using hkey, by simpa [ErrInv] using herr, ⟨setBufBytes_wf s i bs hwf, hbelow'⟩,
    by simpa [BlkInv] using hblk⟩

theorem Inv.hostWrite {s : State} (off : Nat) (bs : List Byte) (h : Inv s) : Inv (hostWrite off bs s) := by
  obtain ⟨_, hs⟩ | ⟨l, i, t, ha, hw, hs⟩ := hostWrite_cases off bs s <;> rw [hs]
  · exact h
  · show Inv t
    obtain rfl | ⟨v, rfl⟩ | rfl | ⟨rfl, rfl⟩ := writeLoc_cases hw
    · exact h
    · exact h
    · exact h.setHdrBytes i bs
    · exact h.setBufBytes (access_buf ha)

theorem Inv.hostRead {s : State} (off n : Nat) (h : Inv s) : Inv (hostRead off n s) := by
  obtain ⟨_, -, hs⟩ | ⟨_, _, -, -, hs⟩ | ⟨_, _, -, -, hs⟩ := hostRead_cases off n s <;> rw [hs] <;> exact h

/-- The state after a reset, whatever the state before: nothing valid, nothing recorded, nothing written. -/
theorem Inv.applyReset (s : State) : Inv (applyReset s) :=
  ⟨fun hv => absurd hv (by simp), rfl, ⟨rfl, rfl⟩, Nat.zero_le _⟩

theorem Inv.applyInput {s : State} (i : Input) (h : Inv s) : Inv (applyInput i s) := by
  cases i with
  | write off bs => exact h.hostWrite off bs
  | read off n => exact h.hostRead off n
  | reset => exact .applyReset s

/-- Settles O54: each kind of step keeps the invariant. -/
theorem stepKeepsTheInvariant : Obligations.StepKeepsTheInvariant := by
  intro s t h ht
  obtain ⟨-, hs⟩ | ⟨i, rest, -, -, hs⟩ | ⟨_, rest, _, _, -, -, -, hs⟩ | ⟨_, rest, _, _, -, -, -, hs⟩ := step_cases s
  · cases hs.symm.trans ht; exact h
  · cases hs.symm.trans ht; exact (h.takeInput rest).applyInput i
  · exact (h.acceptCommand rest).exec (hs.symm.trans ht)
  · cases hs.symm.trans ht; exact (h.acceptCommand rest).illegalCommand

/-- Settles O55: the reset state, like the state after any reset, meets each part. -/
theorem resetMeetsTheInvariant : Obligations.ResetMeetsTheInvariant :=
  ⟨fun hv => absurd hv Bool.false_ne_true, rfl, ⟨rfl, rfl⟩, Nat.zero_le _⟩

/-! ### A step by its next input -/

section
variable {s : State} {rest : List Input}

theorem step_of_idle (hp : s.pending = []) : step s = .next s := by simp only [step, hp]

theorem step_of_input {i : Input} (hp : s.pending = i :: rest) (hc : commandBytes i = none) :
    step s = .next (applyInput i (takeInput rest s)) := by simp only [step, hp, hc]

theorem step_of_illegal {i : Input} {bs : List Byte} {r : DecodeReject} (hp : s.pending = i :: rest)
    (hc : commandBytes i = some bs) (hd : decodeBytes bs = .error r) :
    step s = .next (illegalCommand (acceptCommand rest s)) := by simp only [step, hp, hc, hd]

theorem step_of_read {off n : Nat} (hp : s.pending = .read off n :: rest) :
    step s = .next (hostRead off n (takeInput rest s)) := step_of_input hp rfl

theorem step_of_write {off : Nat} {bs : List Byte} (hp : s.pending = .write off bs :: rest)
    (hc : commandBytes (.write off bs) = none) : step s = .next (hostWrite off bs (takeInput rest s)) :=
  step_of_input hp hc

theorem step_of_reset (hp : s.pending = .reset :: rest) : step s = .next (applyReset (takeInput rest s)) :=
  step_of_input hp rfl

end

/-! ### A host access by what the window says of it -/

section
variable {off n i : Nat} {bs : List Byte} {s : State} {l : Loc} {why : AccessRefusal}

theorem hostRead_of_refused (ha : access s.bufcap.bytes off n = .error why) :
    hostRead off n s = drawn (reply (.refusedRead why (freeBytes s.draws n)) s) := by simp only [hostRead, ha]

theorem hostRead_of_access (ha : access s.bufcap.bytes off n = .ok (l, i)) :
    hostRead off n s =
      if readsUnspecified s l then drawn (reply (.data (freeBytes s.draws n)) s)
      else reply (.data (locBytes s l i n)) s := by simp only [hostRead, ha]

theorem hostWrite_of_refused (ha : access s.bufcap.bytes off bs.length = .error why) :
    hostWrite off bs s = reply (.refusedWrite why) s := by simp only [hostWrite, ha]

theorem hostWrite_of_readOnly (ha : access s.bufcap.bytes off bs.length = .ok (l, i)) (hw : writeLoc l i bs s = none) :
    hostWrite off bs s = reply (.refusedWrite .readOnly) s := by simp only [hostWrite, ha, hw]

theorem hostWrite_of_writable {t : State} (ha : access s.bufcap.bytes off bs.length = .ok (l, i))
    (hw : writeLoc l i bs s = some t) : hostWrite off bs s = reply .written t := by simp only [hostWrite, ha, hw]

end

/-! ### The bits of an invalid seed or key -/

/-- The state with other bits in `SEED` and `KEY`. -/
def State.withSecrets (s : State) (sd : DWord) (ky : Key) : State := { s with seed := sd, key := ky }

theorem agreeOnDefined_iff {s s' : State} : AgreeOnDefined s s' ↔
    ∃ sd ky, s' = s.withSecrets sd ky ∧ (s.seedv = true → sd = s.seed) ∧ (s.keyv = true → ky = s.key) := by
  constructor
  · rintro ⟨hs, hseed, hkey⟩
    exact ⟨_, _, hs, hseed, hkey⟩
  · rintro ⟨sd, ky, rfl, hseed, hkey⟩
    exact ⟨rfl, hseed, hkey⟩

section
variable (s : State) (sd : DWord) (ky : Key)

theorem State.setBufBytes_withSecrets (a : Nat) (bs : List Byte) :
    (s.withSecrets sd ky).setBufBytes a bs = (s.setBufBytes a bs).withSecrets sd ky := by
  induction bs generalizing s a with
  | nil => rfl
  | cons v rest ih => exact ih (s.setBufByte a v) (a + 1)

theorem State.setHdrBytes_withSecrets (i : Nat) (bs : List Byte) :
    (s.withSecrets sd ky).setHdrBytes i bs = (s.setHdrBytes i bs).withSecrets sd ky := by
  induction bs generalizing s i with
  | nil => rfl
  | cons v rest ih => exact ih (s.setHdrByte i v) (i + 1)

/-- A turn of the loop uses the key and not the seed (rules R136, R137). -/
theorem cipherStep_withSecrets (f : Key → Word → Block → Block) :
    cipherStep f (s.withSecrets sd s.key) = (cipherStep f s).withSecrets sd s.key :=
  congrArg (setBlk (s.blk + 1)) (State.setBufBytes_withSecrets s sd s.key _ _)

theorem cipherSteps_withSecrets (f : Key → Word → Block → Block) (n : Nat) :
    cipherSteps f n (s.withSecrets sd s.key) = (cipherSteps f n s).withSecrets sd s.key := by
  induction n generalizing s with
  | zero => rfl
  | succ n ih =>
    have h := ih (cipherStep f s)
    rw [cipherStep_key] at h
    rw [cipherSteps, cipherStep_withSecrets, h, cipherSteps]

/-- A pass discards the seed, so its bits do not reach the state after it. -/
theorem cipherPass_withSecrets (f : Key → Word → Block → Block) :
    cipherPass f (s.withSecrets sd s.key) = cipherPass f s :=
  (congrArg discard (cipherSteps_withSecrets (setBlk 0 s) sd f (s.len.toNat / 8))).trans rfl

end

namespace AgreeOnDefined

variable {s s' : State}

theorem refl (s : State) : AgreeOnDefined s s := ⟨rfl, fun _ => rfl, fun _ => rfl⟩

/-- What does not look at the bits of the seed and the key is the same in both states. -/
theorem same {α : Type} (p : State → α) (hp : ∀ sd ky, p (s.withSecrets sd ky) = p s) (h : AgreeOnDefined s s') :
    p s' = p s := by
  obtain ⟨sd, ky, rfl, -, -⟩ := agreeOnDefined_iff.mp h
  exact hp sd ky

/-- An operation that neither uses nor changes the seed, the key and their flags keeps the agreement. -/
theorem map {g : State → State} (hg : ∀ sd ky, g (s.withSecrets sd ky) = (g s).withSecrets sd ky)
    (hseed : (g s).seed = s.seed) (hseedv : (g s).seedv = s.seedv)
    (hkey : (g s).key = s.key) (hkeyv : (g s).keyv = s.keyv)
    (h : AgreeOnDefined s s') : AgreeOnDefined (g s) (g s') := by
  obtain ⟨sd, ky, rfl, hsd, hky⟩ := agreeOnDefined_iff.mp h
  rw [hg]
  exact ⟨rfl, by rwa [hseed, hseedv], by rwa [hkey, hkeyv]⟩

theorem takeInput (h : AgreeOnDefined s s') (rest : List Input) :
    AgreeOnDefined (takeInput rest s) (takeInput rest s') := h.map (fun _ _ => rfl) rfl rfl rfl rfl

theorem reply (h : AgreeOnDefined s s') (r : Reply) : AgreeOnDefined (reply r s) (reply r s') :=
  h.map (fun _ _ => rfl) rfl rfl rfl rfl

theorem acceptCommand (h : AgreeOnDefined s s') (rest : List Input) :
    AgreeOnDefined (acceptCommand rest s) (acceptCommand rest s') := (h.takeInput rest).reply _

theorem drawn (h : AgreeOnDefined s s') : AgreeOnDefined (drawn s) (drawn s') :=
  h.map (fun _ _ => rfl) rfl rfl rfl rfl

theorem raise (h : AgreeOnDefined s s') (f : CmdFault) : AgreeOnDefined (raise f s) (raise f s') :=
  h.map (fun _ _ => rfl) rfl rfl rfl rfl

theorem setLen (h : AgreeOnDefined s s') (v : Word) : AgreeOnDefined (setLen v s) (setLen v s') :=
  h.map (fun _ _ => rfl) rfl rfl rfl rfl

theorem setHdrBytes (h : AgreeOnDefined s s') (i : Nat) (bs : List Byte) :
    AgreeOnDefined (s.setHdrBytes i bs) (s'.setHdrBytes i bs) :=
  h.map (g := (State.setHdrBytes · i bs)) (fun _ _ => State.setHdrBytes_withSecrets ..) (by simp) (by simp) (by simp)
    (by simp)

theorem setBufBytes (h : AgreeOnDefined s s') (a : Nat) (bs : List Byte) :
    AgreeOnDefined (s.setBufBytes a bs) (s'.setBufBytes a bs) :=
  h.map (g := (State.setBufBytes · a bs)) (fun _ _ => State.setBufBytes_withSecrets ..) (by simp) (by simp) (by simp)
    (by simp)

theorem loadSeed (h : AgreeOnDefined s s') (v : DWord) : AgreeOnDefined (loadSeed v s) (loadSeed v s') := by
  obtain ⟨sd, ky, rfl, -, -⟩ := agreeOnDefined_iff.mp h
  exact ⟨rfl, fun _ => rfl, fun hv => absurd hv (by simp)⟩

theorem loadKey (h : AgreeOnDefined s s') (k : Key) : AgreeOnDefined (loadKey k s) (loadKey k s') := by
  obtain ⟨sd, ky, rfl, hsd, -⟩ := agreeOnDefined_iff.mp h
  exact ⟨rfl, hsd, fun _ => rfl⟩

theorem unlessError {k k' : State} (h : AgreeOnDefined s s') (hk : AgreeOnDefined k k') :
    AgreeOnDefined (unlessError s k) (unlessError s' k') := by
  have he : s'.err = s.err := h.same State.err fun _ _ => rfl
  cases herr : s.err with
  | true => rwa [unlessError_of_err k herr, unlessError_of_err k' (he.trans herr)]
  | false => rwa [unlessError_of_ok k herr, unlessError_of_ok k' (he.trans herr)]

/-- A pass runs only with a valid key, which both states share. -/
theorem cipherCommand (h : AgreeOnDefined s s') (f : Key → Word → Block → Block) :
    AgreeOnDefined (cipherCommand f s) (cipherCommand f s') := by
  have hkeyv : s'.keyv = s.keyv := h.same State.keyv fun _ _ => rfl
  have hlen : malformedLength s' = malformedLength s := h.same malformedLength fun _ _ => rfl
  refine h.unlessError ?_
  rw [hkeyv, hlen]
  split
  · next hk =>
    split
    · exact h.raise _
    · obtain ⟨sd, ky, rfl, -, hky⟩ := agreeOnDefined_iff.mp h
      rw [hky hk, cipherPass_withSecrets]
      exact refl _
  · exact h.raise _

/-- KEXP uses the seed only while it is valid, and nothing of the old key (rules R110, R112). -/
theorem kexp (h : AgreeOnDefined s s') :
    AgreeOnDefined (if s.seedv then Machine.loadKey (keyExpandOver s.key s.seed) s else Machine.raise .noseed s)
      (if s'.seedv then Machine.loadKey (keyExpandOver s'.key s'.seed) s' else Machine.raise .noseed s') := by
  have hseedv : s'.seedv = s.seedv := h.same State.seedv fun _ _ => rfl
  have ⟨_, hseed, _⟩ := h
  rw [hseedv]
  split
  · next hv =>
    rw [hseed hv, keyExpandOver_eq, keyExpandOver_eq]
    exact h.loadKey _
  · exact h.raise _

theorem exec {t : State} (h : AgreeOnDefined s s') (c : Instr) (ht : exec c s = .next t) :
    ∃ t', exec c s' = .next t' ∧ AgreeOnDefined t t' := by
  have hhdr : s'.hdr = s.hdr := h.same State.hdr fun _ _ => rfl
  have hlow : hdrLow8 s' = hdrLow8 s := h.same hdrLow8 fun _ _ => rfl
  cases c with
  | nop => cases ht; exact ⟨_, rfl, h⟩
  | seedx => cases ht; exact ⟨_, rfl, h.unlessError (hhdr ▸ h.loadSeed _)⟩
  | seedld => cases ht; exact ⟨_, rfl, h.unlessError (hlow ▸ h.loadSeed _)⟩
  | kexp => cases ht; exact ⟨_, rfl, h.unlessError h.kexp⟩
  | enc => cases ht; exact ⟨_, rfl, h.cipherCommand _⟩
  | dec => cases ht; exact ⟨_, rfl, h.cipherCommand _⟩
  | clr => cases ht; exact ⟨_, rfl, h.same discard (fun _ _ => rfl) ▸ refl _⟩

/-- A place that reads as specified reads the same in both states (rule R34). -/
theorem locBytes (h : AgreeOnDefined s s') {l : Loc} (hu : readsUnspecified s l = false) (i n : Nat) :
    locBytes s' l i n = locBytes s l i n := by
  obtain ⟨sd, ky, rfl, hsd, hky⟩ := agreeOnDefined_iff.mp h
  cases l with
  | seedLo => rw [hsd (by simpa [readsUnspecified] using hu)]; rfl
  | seedHi => rw [hsd (by simpa [readsUnspecified] using hu)]; rfl
  | key => rw [hky (by simpa [readsUnspecified] using hu)]; rfl
  | cmd | status | len | blk | hdr | buf => rfl

theorem hostRead (h : AgreeOnDefined s s') (off n : Nat) : AgreeOnDefined (hostRead off n s) (hostRead off n s') := by
  have hcap : s'.bufcap = s.bufcap := h.same State.bufcap fun _ _ => rfl
  have hdraws : s'.draws = s.draws := h.same State.draws fun _ _ => rfl
  cases ha : access s.bufcap.bytes off n with
  | error why =>
    rw [hostRead_of_refused ha, hostRead_of_refused (hcap ▸ ha), hdraws]
    exact (h.reply _).drawn
  | ok p =>
    obtain ⟨l, i⟩ := p
    have hread : readsUnspecified s' l = readsUnspecified s l :=
      h.same (readsUnspecified · l) fun _ _ => by cases l <;> rfl
    rw [hostRead_of_access ha, hostRead_of_access (hcap ▸ ha), hread, hdraws]
    cases hu : readsUnspecified s l with
    | true => exact (h.reply _).drawn
    | false => rw [h.locBytes hu]; exact h.reply _

/-- A write into a place is taken in both states or in neither. -/
theorem writeLoc (h : AgreeOnDefined s s') (l : Loc) (i : Nat) (bs : List Byte) :
    (writeLoc l i bs s = none ∧ writeLoc l i bs s' = none) ∨
    ∃ t t', writeLoc l i bs s = some t ∧ writeLoc l i bs s' = some t' ∧ AgreeOnDefined t t' := by
  cases l with
  | cmd => exact .inr ⟨_, _, rfl, rfl, h⟩
  | len =>
    cases hw : wordOfBytes bs with
    | none => left; simp [Machine.writeLoc, hw]
    | some v => right; exact ⟨_, _, by simp [Machine.writeLoc, hw], by simp [Machine.writeLoc, hw], h.setLen v⟩
  | hdr => exact .inr ⟨_, _, rfl, rfl, h.setHdrBytes i bs⟩
  | buf => exact .inr ⟨_, _, rfl, rfl, h.setBufBytes i bs⟩
  | status | blk | seedLo | seedHi | key => exact .inl ⟨rfl, rfl⟩

theorem hostWrite (h : AgreeOnDefined s s') (off : Nat) (bs : List Byte) :
    AgreeOnDefined (hostWrite off bs s) (hostWrite off bs s') := by
  have hcap : s'.bufcap = s.bufcap := h.same State.bufcap fun _ _ => rfl
  cases ha : access s.bufcap.bytes off bs.length with
  | error why =>
    rw [hostWrite_of_refused ha, hostWrite_of_refused (hcap ▸ ha)]
    exact h.reply _
  | ok p =>
    obtain ⟨l, i⟩ := p
    obtain ⟨hw, hw'⟩ | ⟨t, t', hw, hw', ht⟩ := h.writeLoc l i bs
    · rw [hostWrite_of_readOnly ha hw, hostWrite_of_readOnly (hcap ▸ ha) hw']
      exact h.reply _
    · rw [hostWrite_of_writable ha hw, hostWrite_of_writable (hcap ▸ ha) hw']
      exact ht.reply _

theorem applyInput (h : AgreeOnDefined s s') (i : Input) : AgreeOnDefined (applyInput i s) (applyInput i s') := by
  cases i with
  | write off bs => exact h.hostWrite off bs
  | read off n => exact h.hostRead off n
  | reset =>
    have hreset : applyReset s' = applyReset s := h.same applyReset fun _ _ => rfl
    rw [Machine.applyInput, Machine.applyInput, hreset]
    exact refl _

end AgreeOnDefined

/-- Settles O53: both states have the same inputs pending, so they make the same kind of step. -/
theorem undefinedBitsNeverMatter : Obligations.UndefinedBitsNeverMatter := by
  intro s s' t h ht
  have hpend : s'.pending = s.pending := h.same State.pending fun _ _ => rfl
  obtain ⟨hp, hs⟩ | ⟨i, rest, hp, hc, hs⟩ | ⟨i, rest, bs, c, hp, hc, hd, hs⟩ | ⟨i, rest, bs, r, hp, hc, hd, hs⟩ :=
    step_cases s
  · cases hs.symm.trans ht
    exact ⟨_, step_of_idle (hpend.trans hp), h⟩
  · cases hs.symm.trans ht
    exact ⟨_, step_of_input (hpend.trans hp) hc, (h.takeInput rest).applyInput i⟩
  · obtain ⟨rfl, -⟩ := commandBytes_eq_some hc
    rw [step_of_command (hpend.trans hp) hd]
    exact (h.acceptCommand rest).exec c (hs.symm.trans ht)
  · cases hs.symm.trans ht
    refine ⟨_, step_of_illegal (hpend.trans hp) hc hd, ?_⟩
    exact (h.acceptCommand rest).unlessError ((h.acceptCommand rest).raise _)

/-! ### The window map -/

/-- The places of the window do not overlap (rule R33). -/
theorem windowMap_disjoint (cap : Nat) :
    (windowMap cap).Pairwise fun r q => r.base + r.size ≤ q.base ∨ q.base + q.size ≤ r.base := by
  simp [windowMap]

/-- A register is four bytes wide (rule R33). -/
theorem size_of_isRegister (cap : Nat) : ∀ r ∈ windowMap cap, r.isRegister = true → r.size = 4 := by simp [windowMap]

theorem locate_eq_some_iff {cap off : Nat} {r : WindowRow} :
    locate cap off = some r ↔ r ∈ windowMap cap ∧ r.base ≤ off ∧ off < r.base + r.size := by
  have found {q : WindowRow} (h : locate cap off = some q) :
      q ∈ windowMap cap ∧ q.base ≤ off ∧ off < q.base + q.size :=
    ⟨List.mem_of_find?_eq_some h, by simpa using List.find?_some h⟩
  refine ⟨found, fun ⟨hm, hlo, hhi⟩ => ?_⟩
  have hsome : (locate cap off).isSome := List.find?_isSome.mpr ⟨r, hm, by simp [hlo, hhi]⟩
  obtain ⟨q, hq⟩ := Option.isSome_iff_exists.mp hsome
  obtain ⟨hqm, hqlo, hqhi⟩ := found hq
  have : Std.Symm fun r q : WindowRow => r.base + r.size ≤ q.base ∨ q.base + q.size ≤ r.base := ⟨fun _ _ => Or.symm⟩
  by_cases hne : r = q
  · rw [hq, hne]
  · have := (windowMap_disjoint cap).forall hm hqm hne
    omega

/-- Rule R36 as a row of the map states it: a register takes a 32-bit access at its own offset, a byte window 1, 2, 4
or 8 bytes at a multiple of their number, wholly inside it; `i` is the index in the place. -/
def WindowRow.Takes (r : WindowRow) (off n i : Nat) : Prop :=
  if r.isRegister then i = 0 ∧ n = 4 ∧ off = r.base
  else (n = 1 ∨ n = 2 ∨ n = 4 ∨ n = 8) ∧ off % n = 0 ∧ off = r.base + i ∧ i + n ≤ r.size

theorem rowTakes_register_iff {r : WindowRow} {off n : Nat} (hr : r.isRegister = true) :
    rowTakes r off n = .ok () ↔ n = 4 ∧ off = r.base := by
  by_cases hn : n = 4
  · by_cases hoff : off = r.base <;> simp [rowTakes, hr, hn, hoff]
  · simp [rowTakes, hr, hn]

theorem rowTakes_window_iff {r : WindowRow} {off n : Nat} (hr : r.isRegister = false) :
    rowTakes r off n = .ok () ↔ (n = 1 ∨ n = 2 ∨ n = 4 ∨ n = 8) ∧ off + n ≤ r.base + r.size ∧ off % n = 0 := by
  simp only [rowTakes, hr, Bool.false_eq_true, if_false]
  split
  · next h => simp only [reduceCtorEq, false_iff]; omega
  · split
    · next h => simp only [reduceCtorEq, false_iff]; omega
    · split
      · next h => simp only [reduceCtorEq, false_iff]; omega
      · simp only [true_iff]; omega

theorem access_eq_ok_iff_locate {cap off n i : Nat} {l : Loc} : access cap off n = .ok (l, i) ↔
    ∃ r, locate cap off = some r ∧ rowTakes r off n = .ok () ∧ r.loc = l ∧ off - r.base = i := by
  unfold access
  cases locate cap off with
  | none => simp
  | some r => cases hr : rowTakes r off n <;> simp [hr]

/-- The window takes an access exactly when one row of its map does, at that row's place (rules R33, R36). -/
theorem access_eq_ok_iff {cap off n i : Nat} {l : Loc} :
    access cap off n = .ok (l, i) ↔ ∃ r ∈ windowMap cap, r.loc = l ∧ r.Takes off n i := by
  rw [access_eq_ok_iff_locate]
  refine exists_congr fun r => ?_
  rw [locate_eq_some_iff, WindowRow.Takes]
  cases hr : r.isRegister with
  | true =>
    rw [rowTakes_register_iff hr, if_pos rfl]
    constructor
    · rintro ⟨⟨hm, -, -⟩, ⟨hn, hoff⟩, hl, hi⟩
      exact ⟨hm, hl, by omega, hn, hoff⟩
    · rintro ⟨hm, hl, hi, hn, hoff⟩
      have := size_of_isRegister cap r hm hr
      exact ⟨⟨hm, by omega, by omega⟩, ⟨hn, hoff⟩, hl, by omega⟩
  | false =>
    rw [rowTakes_window_iff hr, if_neg Bool.false_ne_true]
    constructor
    · rintro ⟨⟨hm, hlo, -⟩, ⟨hn, hend, hmod⟩, hl, hi⟩
      exact ⟨hm, hl, hn, hmod, by omega, by omega⟩
    · rintro ⟨hm, hl, hn, hmod, hoff, hend⟩
      exact ⟨⟨hm, by omega, by omega⟩, ⟨hn, by omega, hmod⟩, hl, by omega⟩

/-- Settles O11: the rows of the map, each read by its place. -/
theorem windowTakesExactlyTheAllowedAccesses : Obligations.WindowTakesExactlyTheAllowedAccesses := by
  intro cap off n l i
  rw [access_eq_ok_iff]
  simp only [windowMap, List.mem_cons, List.not_mem_nil, or_false, exists_eq_or_imp, exists_eq_left, WindowRow.Takes]
  cases l <;> simp

/-! ### Accesses of the registers and the byte windows -/

section
variable (cap : Nat)

theorem access_cmd : access cap 0x000 4 = .ok (.cmd, 0) := rfl
theorem access_status : access cap 0x004 4 = .ok (.status, 0) := rfl
theorem access_len : access cap 0x008 4 = .ok (.len, 0) := rfl
theorem access_blk : access cap 0x00C 4 = .ok (.blk, 0) := rfl
theorem access_seedLo : access cap 0x010 4 = .ok (.seedLo, 0) := rfl
theorem access_seedHi : access cap 0x014 4 = .ok (.seedHi, 0) := rfl

variable {i n : Nat} (hn : n = 1 ∨ n = 2 ∨ n = 4 ∨ n = 8) (hi : i % n = 0)
include hn hi

/-- A base that every size divides does not change the alignment. -/
theorem aligned_of_base {base : Nat} (hb : base % 8 = 0) : (base + i) % n = 0 := by
  obtain rfl | rfl | rfl | rfl := hn <;> omega

theorem access_hdrWindow (h : i + n ≤ 16) : access cap (0x020 + i) n = .ok (.hdr, i) :=
  (windowTakesExactlyTheAllowedAccesses ..).mpr (.inr ⟨hn, aligned_of_base hn hi rfl, .inl ⟨rfl, rfl, h⟩⟩)

theorem access_keyWindow (h : i + n ≤ 256) : access cap (0x100 + i) n = .ok (.key, i) :=
  (windowTakesExactlyTheAllowedAccesses ..).mpr (.inr ⟨hn, aligned_of_base hn hi rfl, .inr (.inl ⟨rfl, rfl, h⟩)⟩)

theorem access_bufWindow {cap : Nat} (h : i + n ≤ cap) : access cap (0x1000 + i) n = .ok (.buf, i) :=
  (windowTakesExactlyTheAllowedAccesses ..).mpr (.inr ⟨hn, aligned_of_base hn hi rfl, .inr (.inr ⟨rfl, rfl, h⟩)⟩)

end

/-- A command's bus write is an access of `CMD`, so an access of any other place, or a refused one, is no command. -/
theorem commandBytes_eq_none_of_access {cap off : Nat} {bs : List Byte} {r : Except AccessRefusal (Loc × Nat)}
    (ha : access cap off bs.length = r) (hr : r ≠ .ok (.cmd, 0)) : commandBytes (.write off bs) = none := by
  cases hc : commandBytes (.write off bs) with
  | none => rfl
  | some b =>
    obtain ⟨hw, hlen⟩ := commandBytes_eq_some hc
    cases hw
    exact absurd (ha.symm.trans (hlen ▸ access_cmd cap)) hr

/-! ### Steps that are host accesses -/

section
variable {s : State} {rest : List Input} {off n i : Nat} {bs : List Byte} {l : Loc} {why : AccessRefusal}

theorem step_of_refusedRead (hp : s.pending = .read off n :: rest) (ha : access s.bufcap.bytes off n = .error why) :
    step s = .next { s with
      pending := rest, replies := .refusedRead why (freeBytes s.draws n) :: s.replies, draws := s.draws + 1 } := by
  rw [step_of_read hp, hostRead_of_refused (s := takeInput rest s) ha]
  rfl

theorem step_of_specifiedRead (hp : s.pending = .read off n :: rest) (ha : access s.bufcap.bytes off n = .ok (l, i))
    (hu : readsUnspecified s l = false) :
    step s = .next { s with pending := rest, replies := .data (locBytes s l i n) :: s.replies } := by
  have hu' : ¬ readsUnspecified (takeInput rest s) l = true := Bool.not_eq_true _ ▸ hu
  rw [step_of_read hp, hostRead_of_access (s := takeInput rest s) ha, if_neg hu']
  rfl

theorem step_of_unspecifiedRead (hp : s.pending = .read off n :: rest) (ha : access s.bufcap.bytes off n = .ok (l, i))
    (hu : readsUnspecified s l = true) :
    step s = .next { s with
      pending := rest, replies := .data (freeBytes s.draws n) :: s.replies, draws := s.draws + 1 } := by
  have hu' : readsUnspecified (takeInput rest s) l = true := hu
  rw [step_of_read hp, hostRead_of_access (s := takeInput rest s) ha, if_pos hu']
  rfl

theorem step_of_refusedWrite (hp : s.pending = .write off bs :: rest)
    (ha : access s.bufcap.bytes off bs.length = .error why) :
    step s = .next { s with pending := rest, replies := .refusedWrite why :: s.replies } := by
  have hc : commandBytes (.write off bs) = none := commandBytes_eq_none_of_access ha (by simp)
  rw [step_of_write hp hc, hostWrite_of_refused (s := takeInput rest s) ha]
  rfl

theorem step_of_readOnlyWrite (hp : s.pending = .write off bs :: rest)
    (ha : access s.bufcap.bytes off bs.length = .ok (l, i))
    (hl : l = .status ∨ l = .blk ∨ l = .seedLo ∨ l = .seedHi ∨ l = .key) :
    step s = .next { s with pending := rest, replies := .refusedWrite .readOnly :: s.replies } := by
  have hw : l ≠ .cmd ∧ writeLoc l i bs (takeInput rest s) = none := by
    obtain rfl | rfl | rfl | rfl | rfl := hl <;> exact ⟨by decide, rfl⟩
  have hc : commandBytes (.write off bs) = none := commandBytes_eq_none_of_access ha (by simp [hw.1])
  rw [step_of_write hp hc, hostWrite_of_readOnly (s := takeInput rest s) ha hw.2]
  rfl

theorem step_of_storingWrite {t : State} (hp : s.pending = .write off bs :: rest)
    (ha : access s.bufcap.bytes off bs.length = .ok (l, i)) (hl : l ≠ .cmd)
    (hw : writeLoc l i bs (takeInput rest s) = some t) :
    step s = .next (reply .written t) := by
  have hc : commandBytes (.write off bs) = none := commandBytes_eq_none_of_access ha (by simp [hl])
  rw [step_of_write hp hc, hostWrite_of_writable (s := takeInput rest s) ha hw]

end

/-! ### STATUS -/

theorem getLsbD_flagBit_shiftLeft (b : Bool) {k : Nat} (hk : k < 32) (i : Nat) :
    (flagBit b <<< k).getLsbD i = (decide (i = k) && b) := by
  cases b with
  | false => simp [flagBit]
  | true =>
    simp only [flagBit, if_true, BitVec.getLsbD_shiftLeft, Bool.and_true]
    rw [Bool.eq_iff_iff]
    simp
    omega

theorem getLsbD_codeField (c : Option CmdFault) (i : Nat) :
    ((faultCode c).setWidth 32 <<< 8).getLsbD i = (decide (8 ≤ i) && (faultCode c).getLsbD (i - 8)) := by
  have hwidth : 32 ≤ i → (faultCode c).getLsbD (i - 8) = false := fun h => BitVec.getLsbD_of_ge _ _ (by omega)
  by_cases h : i < 32
  · rw [Bool.eq_iff_iff]; simp [h]
  · simp [h, hwidth (by omega)]

/-- Each bit of `STATUS` (rule R35). -/
theorem getLsbD_statusWord (s : State) (i : Nat) : (statusWord s).getLsbD i =
    ((decide (i = 0) && s.seedv) || (decide (i = 1) && s.keyv) || (decide (i = 2) && s.err) ||
      (decide (8 ≤ i) && (faultCode s.errcode).getLsbD (i - 8))) := by
  have h0 := getLsbD_flagBit_shiftLeft s.seedv (k := 0) (by omega) i
  rw [BitVec.shiftLeft_zero] at h0
  simp only [statusWord, BitVec.getLsbD_or, getLsbD_codeField, h0]
  rw [getLsbD_flagBit_shiftLeft _ (by omega), getLsbD_flagBit_shiftLeft _ (by omega)]

theorem extractLsb'_statusWord (s : State) : (statusWord s).extractLsb' 8 4 = faultCode s.errcode := by
  refine BitVec.eq_of_getLsbD_eq fun i hi => ?_
  rw [BitVec.getLsbD_extractLsb', getLsbD_statusWord]
  have h1 : 8 + i ≠ 1 := by omega
  have h2 : 8 + i ≠ 2 := by omega
  simp [hi, h1, h2]

theorem getLsbD_statusWord_reserved (s : State) {i : Nat} (hi : (3 ≤ i ∧ i ≤ 7) ∨ 12 ≤ i) :
    (statusWord s).getLsbD i = false := by
  have hcode : 12 ≤ i → (faultCode s.errcode).getLsbD (i - 8) = false := fun h => BitVec.getLsbD_of_ge _ _ (by omega)
  rw [getLsbD_statusWord]
  obtain hi | hi := hi
  · simp; omega
  · simp [hcode hi]; omega

theorem statusWord_eq_zero {s : State} (hs : s.seedv = false) (hk : s.keyv = false) (he : s.err = false)
    (hc : s.errcode = none) : statusWord s = 0 := by
  rw [statusWord, hs, hk, he, hc]
  rfl

/-- Settles O10: the bits one by one, then the accesses at `STATUS`'s own offset. -/
theorem statusLayoutAndReadOnly : Obligations.StatusLayoutAndReadOnly := by
  refine ⟨fun s => ⟨?_, ?_, ?_, extractLsb'_statusWord s, fun _ => getLsbD_statusWord_reserved s⟩,
    ⟨rfl, rfl, rfl, rfl, rfl⟩, fun s rest hp => ?_, fun s bs rest hp hlen => ?_⟩
  · rw [getLsbD_statusWord]; simp
  · rw [getLsbD_statusWord]; simp
  · rw [getLsbD_statusWord]; simp
  · exact step_of_specifiedRead hp (access_status _) rfl
  · have ha : access s.bufcap.bytes 0x004 bs.length = .ok (.status, 0) := by rw [hlen]; exact access_status _
    exact ⟨_, step_of_readOnlyWrite hp ha (.inl rfl)⟩

/-! ### Refused accesses and reads -/

/-- Settles O12: a refusal, and a write to a place the host may only read. -/
theorem refusedAccessesChangeNothing : Obligations.RefusedAccessesChangeNothing :=
  ⟨fun _ _ _ _ _ => step_of_refusedWrite, fun _ _ _ _ _ => step_of_refusedRead,
    fun _ _ _ _ _ _ => step_of_readOnlyWrite⟩

/-- Settles O13: whatever the window says, a read only answers, and draws a free value where there is none stored. -/
theorem hostReadsHaveNoSideEffect : Obligations.HostReadsHaveNoSideEffect := by
  intro s off n rest hp
  obtain ⟨why, ha, -⟩ | ⟨l, i, ha, hu, -⟩ | ⟨l, i, ha, hu, -⟩ := hostRead_cases off n s
  · exact ⟨_, _, step_of_refusedRead hp ha⟩
  · exact ⟨_, _, step_of_unspecifiedRead hp ha hu⟩
  · exact ⟨_, _, step_of_specifiedRead hp ha hu⟩

/-- A read of a place whose validity flag is `v`: the stored bytes while it is set, free bytes while it is not. -/
theorem step_of_guardedRead {s : State} {rest : List Input} {off n i : Nat} {l : Loc} {v : Bool}
    (hp : s.pending = .read off n :: rest) (ha : access s.bufcap.bytes off n = .ok (l, i))
    (hv : readsUnspecified s l = !v) :
    step s = .next (if v
      then { s with pending := rest, replies := .data (locBytes s l i n) :: s.replies }
      else { s with pending := rest, replies := .data (freeBytes s.draws n) :: s.replies, draws := s.draws + 1 }) := by
  cases v with
  | true => exact step_of_specifiedRead hp ha hv
  | false => exact step_of_unspecifiedRead hp ha hv

/-- Settles O14: `SEED` is guarded by `SEEDV`, `KEY` by `KEYV`. -/
theorem seedAndKeyReadOnlyWhileValid : Obligations.SeedAndKeyReadOnlyWhileValid :=
  ⟨fun _ _ hp => step_of_guardedRead hp (access_seedLo _) rfl,
    fun _ _ hp => step_of_guardedRead hp (access_seedHi _) rfl,
    fun _ _ _ _ hp hn hi h => step_of_guardedRead hp (access_keyWindow _ hn hi h) rfl⟩

/-- Settles O15: no flag guards these places. -/
theorem otherReadsGiveTheStoredValue : Obligations.OtherReadsGiveTheStoredValue :=
  ⟨fun _ _ hp => step_of_specifiedRead hp (access_cmd _) rfl,
    fun _ _ hp => step_of_specifiedRead hp (access_len _) rfl,
    fun _ _ hp => step_of_specifiedRead hp (access_blk _) rfl,
    fun _ _ _ _ hp hn hi h => step_of_specifiedRead hp (access_hdrWindow _ hn hi h) rfl,
    fun _ _ _ _ hp hn hi h => step_of_specifiedRead hp (access_bufWindow hn hi h) rfl⟩

/-! ### Writes -/

/-- Settles O16: the four bytes of a word are read back as the word. -/
theorem hostWriteSetsTheLength : Obligations.HostWriteSetsTheLength := by
  intro s v rest hp
  have hw : writeLoc .len 0 (wordBytes v) (takeInput rest s) = some (setLen v (takeInput rest s)) := by
    simp [writeLoc]
  exact step_of_storingWrite hp (access_len _) (by decide) hw

theorem setHdrBytes_eq (s : State) (i : Nat) (bs : List Byte) :
    s.setHdrBytes i bs = { s with hdr := (s.setHdrBytes i bs).hdr } := by
  induction bs generalizing s i with
  | nil => rfl
  | cons v rest ih => rw [State.setHdrBytes, ih]; rfl

theorem setBufBytes_eq (s : State) (a : Nat) (bs : List Byte) :
    s.setBufBytes a bs = { s with buf := (s.setBufBytes a bs).buf } := by
  induction bs generalizing s a with
  | nil => rfl
  | cons v rest ih => rw [State.setBufBytes, ih]; rfl

theorem getD_setIfInBounds {n : Nat} (k : Vector Byte n) (i : Nat) (v : Byte) {x : Nat} (hx : x < n) :
    (k.setIfInBounds i v).getD x 0 = if i = x then v else k.getD x 0 := by
  have hget (l : Vector Byte n) : l.getD x 0 = l[x] := (Array.getElem_eq_getD (xs := l.toArray) (h := by simpa) 0).symm
  rw [hget, hget, Vector.getElem_setIfInBounds]

theorem hdr_setHdrBytes_getD (s : State) (i : Nat) (bs : List Byte) {x : Nat} (hx : x < 16) :
    (s.setHdrBytes i bs).hdr.getD x 0 =
      if i ≤ x ∧ x < i + bs.length then bs.getD (x - i) 0 else s.hdr.getD x 0 := by
  induction bs generalizing s i with
  | nil => rw [List.length_nil, if_neg (by omega), State.setHdrBytes]
  | cons v rest ih =>
    rw [State.setHdrBytes, ih, State.setHdrByte_hdr, getD_setIfInBounds _ _ _ hx, List.length_cons]
    obtain hlt | rfl | hgt := Nat.lt_trichotomy x i
    · rw [if_neg (by omega), if_neg (by omega), if_neg (by omega)]
    · rw [if_neg (by omega), if_pos rfl, if_pos (by omega), Nat.sub_self, List.getD_cons_zero]
    · obtain ⟨d, rfl⟩ := Nat.exists_eq_add_of_lt hgt
      have h1 : i + d + 1 - (i + 1) = d := by omega
      have h2 : i + d + 1 - i = d + 1 := by omega
      rw [h1, h2, List.getD_cons_succ, if_neg (c := i = i + d + 1) (by omega)]
      split
      · rw [if_pos (by omega)]
      · rw [if_neg (by omega)]

/-- Settles O17: the write is `setHdrBytes` at the access's index, which changes `HDR` alone. -/
theorem hostWriteStoresHeaderBytes : Obligations.HostWriteStoresHeaderBytes := by
  intro s i bs rest hp hn hi h
  refine ⟨((takeInput rest s).setHdrBytes i bs).hdr, ?_, fun x hx => hdr_setHdrBytes_getD (takeInput rest s) i bs hx⟩
  rw [step_of_storingWrite hp (access_hdrWindow _ hn hi h) (by decide) rfl, setHdrBytes_eq]
  rfl

/-- Settles O18: the write is `setBufBytes` at the access's index, which changes `BUF` alone. -/
theorem hostWriteStoresBufferBytes : Obligations.HostWriteStoresBufferBytes := by
  intro s i bs rest hp hn hi h
  refine ⟨_, ((takeInput rest s).setBufBytes i bs).buf,
    step_of_storingWrite hp (access_bufWindow hn hi h) (by decide) rfl, ?_, fun k hk => ?_, fun a ha => ?_⟩
  · rw [setBufBytes_eq]
    rfl
  · exact (bufByte_setBufBytes_inside (takeInput rest s) i bs hk).trans (by simp [hk])
  · exact bufByte_setBufBytes_outside (takeInput rest s) i bs ha

/-! ### Reset -/

@[simp] theorem statusWord_applyReset (s : State) : statusWord (applyReset s) = 0 :=
  statusWord_eq_zero (s := applyReset s) rfl rfl rfl rfl

/-- Settles O56: the first state by its fields, a reset in any state by the laws of `applyReset`. -/
theorem resetClearsTheFlags : Obligations.ResetClearsTheFlags :=
  ⟨⟨rfl, rfl, rfl, rfl, rfl, rfl, statusWord_eq_zero (s := State.reset) rfl rfl rfl rfl⟩,
    fun _ _ hp => ⟨_, step_of_reset hp, by simp⟩⟩

/-! ### The frame of a command -/

/-- Settles O50: each effect keeps what the table says it keeps. -/
theorem commandsKeepHostRegisters : Obligations.CommandsKeepHostRegisters := by
  intro c s t ht
  cases exec_effect ht with
  | idle hc | ignored hc he => simp
  | faulted f he => simp [State.bufByte, he]
  | seeded v hc he => obtain rfl | rfl := hc <;> simp [State.bufByte]
  | keyed hc he hv => subst hc; simp [State.bufByte]
  | ciphered f hc hr =>
    obtain ⟨he, -⟩ := hr
    obtain rfl | rfl := hc <;> simp [he]
  | cleared hc => subst hc; simp [State.bufByte]

/-! ### The memory of a pass -/

/-- A pass leaves every byte at `LEN` and above (rule R29). -/
theorem cipherPass_bufByte_above (f : Key → Word → Block → Block) (s : State) {a : Nat} (ha : s.len.toNat ≤ a) :
    (cipherPass f s).bufByte a = s.bufByte a :=
  cipherSteps_bufByte_above f _ (setBlk 0 s) (by omega) rfl (by omega)

/-- A byte of the payload after a pass is the byte of its transformed block (rule R134). -/
theorem cipherPass_bufByte_payload (f : Key → Word → Block → Block) (s : State) {a : Nat} (hlen : s.len.toNat % 8 = 0)
    (ha : a < s.len.toNat) :
    (cipherPass f s).bufByte a =
      (f s.key (BitVec.ofNat 32 (a / 8)) (readBytes8 s (8 * (a / 8))))[a % 8]'(Nat.mod_lt _ (by decide)) := by
  have hblock := cipherSteps_block f (s.len.toNat / 8) (setBlk 0 s) (by omega) rfl (j := a / 8) (by omega)
  have hbyte := readBytes8_getElem (cipherPass f s) (8 * (a / 8)) (a % 8) (Nat.mod_lt _ (by decide))
  rw [Nat.div_add_mod] at hbyte
  rw [← hbyte]
  exact congrArg (·[a % 8]'(Nat.mod_lt _ (by decide))) hblock

theorem readBytes8_congr {s t : State} {a : Nat} (h : ∀ k, k < 8 → t.bufByte (a + k) = s.bufByte (a + k)) :
    readBytes8 t a = readBytes8 s a := by
  refine Vector.ext fun k hk => ?_
  rw [readBytes8_getElem _ _ _ hk, readBytes8_getElem _ _ _ hk, h k hk]

theorem cipherCommand_of_ready (f : Key → Word → Block → Block) {s : State} (hr : CipherReady s) :
    cipherCommand f s = cipherPass f s := by
  obtain ⟨he, hk, hlen⟩ := hr
  simp [cipherCommand, he, hk, malformedLength_eq_false.mpr hlen]

/-- An ENC or a DEC that does not execute is ignored or faults, NOKEY before MALFORMED (rule R181). -/
theorem cipherCommand_of_not_ready (f : Key → Word → Block → Block) {s : State} (hr : ¬ CipherReady s) :
    cipherCommand f s = unlessError s (raise (if s.keyv then .malformed else .nokey) s) := by
  obtain ⟨he, h⟩ | ⟨he, hk, h⟩ | ⟨he, hk, -, h⟩ | ⟨he, hk, hm, -⟩ := cipherCommand_cases f s
  · rw [h, unlessError_of_err _ he]
  · rw [h, unlessError_of_ok _ he, hk]; rfl
  · rw [h, unlessError_of_ok _ he, hk]; rfl
  · exact absurd ⟨he, hk, malformedLength_eq_false.mp hm⟩ hr

theorem cipherCommand_bufByte_of_not_ready (f : Key → Word → Block → Block) {s : State} (hr : ¬ CipherReady s)
    (a : Nat) :
    (cipherCommand f s).bufByte a = s.bufByte a := by
  rw [cipherCommand_of_not_ready f hr]
  cases he : s.err with
  | true => rw [unlessError_of_err _ he]
  | false => rw [unlessError_of_ok _ he]; rfl

theorem cipherCommand_bufByte_above (f : Key → Word → Block → Block) (s : State) {a : Nat} (ha : s.len.toNat ≤ a) :
    (cipherCommand f s).bufByte a = s.bufByte a := by
  by_cases hr : CipherReady s
  · rw [cipherCommand_of_ready f hr, cipherPass_bufByte_above f s ha]
  · exact cipherCommand_bufByte_of_not_ready f hr a

/-- Two states that differ in the memory at `LEN` and above only have the same payload after a cipher command. -/
theorem cipherCommand_payload_congr (f : Key → Word → Block → Block) (s : State) (m : List Host.Cell)
    (h : ∀ a, a < s.len.toNat → ({ s with buf := m } : State).bufByte a = s.bufByte a) {a : Nat}
    (ha : a < s.len.toNat) :
    (cipherCommand f { s with buf := m }).bufByte a = (cipherCommand f s).bufByte a := by
  by_cases hr : CipherReady s
  · have ⟨_, _, hlen, _⟩ := hr
    have hblock : readBytes8 { s with buf := m } (8 * (a / 8)) = readBytes8 s (8 * (a / 8)) :=
      readBytes8_congr fun k hk => h _ (by omega)
    rw [cipherCommand_of_ready f hr, cipherCommand_of_ready f (s := { s with buf := m }) hr,
      cipherPass_bufByte_payload f s hlen ha, cipherPass_bufByte_payload f { s with buf := m } hlen ha, hblock]
  · rw [cipherCommand_bufByte_of_not_ready f hr, cipherCommand_bufByte_of_not_ready f (s := { s with buf := m }) hr,
      h a ha]

/-- ENC and DEC are the same command with their own block function. -/
theorem exec_cipher {c : Instr} (hc : c = .enc ∨ c = .dec) : ∃ f, ∀ s, exec c s = .next (cipherCommand f s) := by
  obtain rfl | rfl := hc
  · exact ⟨encBlock, fun _ => rfl⟩
  · exact ⟨decBlock, fun _ => rfl⟩

/-- Settles O45: a command that does not execute leaves the memory, a pass works block by block below `LEN`. -/
theorem cipherCommandsTouchOnlyThePayload : Obligations.CipherCommandsTouchOnlyThePayload := by
  intro c hc
  obtain ⟨f, hf⟩ := exec_cipher hc
  refine ⟨fun s t a ht ha => ?_, fun s m t u h ht hu a ha => ?_⟩
  · cases (hf s).symm.trans ht
    exact cipherCommand_bufByte_above f s ha
  · cases (hf s).symm.trans ht
    cases (hf _).symm.trans hu
    exact cipherCommand_payload_congr f s m h ha

/-! ### The block index left behind -/

theorem unlessError_setBlk (s k : State) (v : Word) :
    unlessError (setBlk v s) (setBlk v k) = setBlk v (unlessError s k) := by
  cases he : s.err <;> simp [he]

theorem cipherCommand_setBlk_of_ready (f : Key → Word → Block → Block) {s : State} (v : Word) (hr : CipherReady s) :
    cipherCommand f (setBlk v s) = cipherCommand f s := by
  rw [cipherCommand_of_ready f hr, cipherCommand_of_ready f (s := setBlk v s) hr]
  rfl

theorem cipherCommand_setBlk_of_not_ready (f : Key → Word → Block → Block) {s : State} (v : Word)
    (hr : ¬ CipherReady s) :
    cipherCommand f (setBlk v s) = setBlk v (cipherCommand f s) := by
  rw [cipherCommand_of_not_ready f hr, cipherCommand_of_not_ready f (s := setBlk v s) hr]
  exact unlessError_setBlk s (raise (if s.keyv then .malformed else .nokey) s) v

theorem cipherCommand_setBlk (f : Key → Word → Block → Block) (s : State) (v : Word) :
    ∃ w, cipherCommand f (setBlk v s) = setBlk w (cipherCommand f s) := by
  by_cases hr : CipherReady s
  · exact ⟨(cipherCommand f s).blk, cipherCommand_setBlk_of_ready f v hr⟩
  · exact ⟨v, cipherCommand_setBlk_of_not_ready f v hr⟩

/-- A command that sets `BLK` itself does not see what stood there (rules R26, R151). -/
theorem exec_setBlk_of_overwrites {c : Instr} {s : State} (v : Word)
    (h : c = .clr ∨ ((c = .enc ∨ c = .dec) ∧ CipherReady s)) : exec c (setBlk v s) = exec c s := by
  obtain rfl | ⟨rfl | rfl, hr⟩ := h
  · rfl
  · exact congrArg Host.Outcome.next (cipherCommand_setBlk_of_ready encBlock v hr)
  · exact congrArg Host.Outcome.next (cipherCommand_setBlk_of_ready decBlock v hr)

/-- The next states of a command from two states that differ in `BLK` differ in `BLK` at most. -/
theorem exec_setBlk {c : Instr} {s t : State} (v : Word) (ht : exec c s = .next t) :
    ∃ w, exec c (setBlk v s) = .next (setBlk w t) := by
  cases c with
  | nop => cases ht; exact ⟨v, rfl⟩
  | seedx => cases ht; exact ⟨v, congrArg Host.Outcome.next (unlessError_setBlk s (loadSeed _ s) v)⟩
  | seedld => cases ht; exact ⟨v, congrArg Host.Outcome.next (unlessError_setBlk s (loadSeed _ s) v)⟩
  | kexp =>
    cases ht
    refine ⟨v, congrArg Host.Outcome.next ?_⟩
    rw [← unlessError_setBlk, apply_ite (setBlk v)]
    rfl
  | enc =>
    cases ht
    obtain ⟨w, h⟩ := cipherCommand_setBlk encBlock s v
    exact ⟨w, congrArg Host.Outcome.next h⟩
  | dec =>
    cases ht
    obtain ⟨w, h⟩ := cipherCommand_setBlk decBlock s v
    exact ⟨w, congrArg Host.Outcome.next h⟩
  | clr => cases ht; exact ⟨0, rfl⟩

/-- Settles O52: no command reads `BLK` before it has set it. -/
theorem blkIsNoInput : Obligations.BlkIsNoInput :=
  fun _ _ _ v ht => ⟨exec_setBlk v ht, fun h => (exec_setBlk_of_overwrites v h).trans ht⟩

end Sys2Proof.Machine

/-! PROOF. The statements on the buffer memory and the views of byte storage (`20_memory.md`): the words as numbers and
as bytes (rule R51), the one store under the views (rule R52), the buffer accesses (rule R56), the key bytes of a block
(rule R59). -/

namespace Sys2Proof.Machine

/-! ### Words as numbers (rule R51) -/

theorem toNat_append_eq_add {m n : Nat} (x : BitVec m) (y : BitVec n) : (x ++ y).toNat = y.toNat + x.toNat * 2 ^ n := by
  rw [BitVec.toNat_append, ← Nat.shiftLeft_add_eq_or_of_lt y.isLt, Nat.shiftLeft_eq, Nat.add_comm]

theorem join32_toNat (b0 b1 b2 b3 : Byte) :
    (join32 b0 b1 b2 b3).toNat = b0.toNat + b1.toNat * 2 ^ 8 + b2.toNat * 2 ^ 16 + b3.toNat * 2 ^ 24 := by
  change BitVec.toNat (b3 ++ b2 ++ b1 ++ b0) = _
  simp only [toNat_append_eq_add]
  omega

theorem join64_toNat (lo hi : Word) : (join64 lo hi).toNat = lo.toNat + hi.toNat * 2 ^ 32 := toNat_append_eq_add hi lo

section Store

variable {n : Nat} (k : Vector Byte n)

theorem word32_toNat (i : Nat) (h : 4 * i + 4 ≤ n) : (word32 k i h).toNat =
    k[4 * i].toNat + k[4 * i + 1].toNat * 2 ^ 8 + k[4 * i + 2].toNat * 2 ^ 16 + k[4 * i + 3].toNat * 2 ^ 24 :=
  join32_toNat ..

theorem word64_toNat (j : Nat) (h : 8 * j + 8 ≤ n) : (word64 k j h).toNat =
    k[8 * j].toNat + k[8 * j + 1].toNat * 2 ^ 8 + k[8 * j + 2].toNat * 2 ^ 16 + k[8 * j + 3].toNat * 2 ^ 24 +
    k[8 * j + 4].toNat * 2 ^ 32 + k[8 * j + 5].toNat * 2 ^ 40 + k[8 * j + 6].toNat * 2 ^ 48 +
    k[8 * j + 7].toNat * 2 ^ 56 := by
  have hlo : 4 * (2 * j) = 8 * j := by omega
  have hhi : 4 * (2 * j + 1) = 8 * j + 4 := by omega
  rw [word64, join64_toNat, word32_toNat, word32_toNat]
  simp only [hlo, hhi, Nat.add_assoc, Nat.reduceAdd]
  omega

/-! ### Words as bytes (rule R51) -/

/-- Byte `r` of a 32-bit word is the store's byte at that place of the word. -/
theorem byteAt_word32 (i : Nat) (h : 4 * i + 4 ≤ n) {r : Nat} (hr : r < 4) : byteAt (word32 k i h) r = k[4 * i + r] := by
  obtain rfl | rfl | rfl | rfl : r = 0 ∨ r = 1 ∨ r = 2 ∨ r = 3 := by omega
  · exact byteAt_join32_0 ..
  · exact byteAt_join32_1 ..
  · exact byteAt_join32_2 ..
  · exact byteAt_join32_3 ..

@[simp] theorem low32_word64 (j : Nat) (h : 8 * j + 8 ≤ n) : low32 (word64 k j h) = word32 k (2 * j) := low32_join64 ..

@[simp] theorem high32_word64 (j : Nat) (h : 8 * j + 8 ≤ n) : high32 (word64 k j h) = word32 k (2 * j + 1) :=
  high32_join64 ..

/-- Byte `r` of a 64-bit word is the store's byte at that place of the word: it lies in the low half or in the high. -/
theorem byteAt_word64 (j : Nat) (h : 8 * j + 8 ≤ n) {r : Nat} (hr : r < 8) : byteAt (word64 k j h) r = k[8 * j + r] := by
  by_cases hlo : r < 4
  · rw [← byteAt_low32 _ hlo, low32_word64, byteAt_word32 _ _ _ hlo]
    congr 1
    omega
  · obtain ⟨q, rfl⟩ := Nat.exists_eq_add_of_le (Nat.not_lt.mp hlo)
    rw [← byteAt_high32 _ (by omega), high32_word64, byteAt_word32 _ _ _ (by omega)]
    congr 1
    omega

end Store

theorem bytes64_eq_iff {v : DWord} {b : Block} : bytes64 v = b ↔ le64 b = v := by
  constructor
  · rintro rfl; exact le64_bytes64 v
  · rintro rfl; exact bytes64_le64 b

theorem bytes64_getElem (v : DWord) (r : Nat) (hr : r < 8) : (bytes64 v)[r] = byteAt v r := by
  have h := byteAt_word64 (bytes64 v) 0 (by omega) hr
  rw [← le64, le64_bytes64] at h
  simpa using h.symm

/-- Settles O20: a view is its bytes joined, and a joined word is the sum of its parts by place value. -/
theorem wordViewsAreLittleEndian : Obligations.WordViewsAreLittleEndian :=
  ⟨fun k i => word32_toNat k i _, fun k j => word64_toNat k j _, fun _ _ => join64_toNat ..,
    fun k i v x => getElem_setWord32 k i v _ x.isLt, fun b => word64_toNat b 0 _,
    fun b => ⟨(low32_word64 b 0 _).symm, (high32_word64 b 0 _).symm, word32_toNat b 0 _, word32_toNat b 1 _⟩,
    fun _ _ => bytes64_eq_iff⟩

/-! ### One store under every view (rule R52) -/

@[simp] theorem key32_setWord32_same (k : Key) (i : Fin 64) (v : Word) : key32 (setWord32 k i.val v) i = v :=
  word32_setWord32_same ..

theorem key32_setWord32_ne (k : Key) {i j : Fin 64} (v : Word) (h : j ≠ i) :
    key32 (setWord32 k i.val v) j = key32 k j :=
  word32_setWord32_ne k v _ _ (Fin.val_ne_of_ne h)

/-- `KEY64[j]` is the pair `KEY32[2j]`, `KEY32[2j+1]`. -/
theorem key64_eq_join64 (k : Key) (j : Fin 32) :
    key64 k j = join64 (key32 k ⟨2 * j.val, by omega⟩) (key32 k ⟨2 * j.val + 1, by omega⟩) := rfl

/-- Settles O21: a 64-bit word is a pair of 32-bit words, and of the pair only the word written changes. -/
theorem viewsShareOneStore : Obligations.ViewsShareOneStore := by
  intro k i v
  refine ⟨key32_setWord32_same k i v, fun j hj => key32_setWord32_ne k v hj, ?_⟩
  simp only [key64_eq_join64, low32_join64, high32_join64]
  split
  · next heven =>
    have hlow : (⟨2 * (i.val / 2), by omega⟩ : Fin 64) = i := Fin.ext (by simp only; omega)
    rw [hlow, key32_setWord32_same, key32_setWord32_ne k v (Fin.ne_of_val_ne (by simp only; omega))]
  · next hodd =>
    have hhigh : (⟨2 * (i.val / 2) + 1, by omega⟩ : Fin 64) = i := Fin.ext (by simp only; omega)
    rw [hhigh, key32_setWord32_same, key32_setWord32_ne k v (Fin.ne_of_val_ne (by simp only; omega))]

/-! ### The key bytes of a block (rule R59) -/

/-- The eight key bytes of a block are consecutive: the index wraps at 256 between blocks only. -/
theorem keyIndex_val (blk : Word) {r : Nat} (hr : r < 8) : (keyIndex blk r).val = 8 * (blk.toNat % 32) + r := by
  simp only [keyIndex]
  omega

theorem byteAt_ekey (k : Key) (blk : Word) {r : Nat} (hr : r < 8) : byteAt (ekey k blk) r = roundKeyByte k blk r := by
  rw [ekey, key64, byteAt_word64 k _ _ hr]
  exact getElem_congr_idx (keyIndex_val blk hr).symm

/-- Settles O40: both stages read the store at the same eight places. -/
theorem roundUsesTheBytesOfTheFinalWord : Obligations.RoundUsesTheBytesOfTheFinalWord :=
  fun k blk i => ⟨keyIndex_val blk i.isLt, rfl, (byteAt_ekey k blk i.isLt).symm⟩

/-! ### The buffer accesses (rule R56) -/

theorem bufByte_memWrite1 (s : State) (a x : Nat) (v : Byte) :
    (memWrite1 s a v).bufByte x = if x = a then v else s.bufByte x := by
  split
  · next h => subst h; exact bufByte_setBufByte_same s x v
  · next h => exact bufByte_setBufByte_ne s v h

theorem bufByte_memWrite8_inside (s : State) (a : Nat) (v : DWord) (r : Nat) (hr : r < 8) :
    (memWrite8 s a v).bufByte (a + r) = byteAt v r := by
  rw [memWrite8, bufByte_writeBytes8_inside _ _ _ _ hr, bytes64_getElem]

theorem memRead8_memWrite8_same (s : State) (a : Nat) (v : DWord) : memRead8 (memWrite8 s a v) a = v := by
  rw [memRead8, memWrite8, readBytes8_writeBytes8_same, le64_bytes64]

/-- An ENC or a DEC that its checks stop has touched neither `BUF` nor `BLK` (rules R136, R137, R181). -/
theorem cipherCommand_buf_blk_of_not_ready (f : Key → Word → Block → Block) {s : State} (hr : ¬ CipherReady s) :
    (cipherCommand f s).buf = s.buf ∧ (cipherCommand f s).blk = s.blk := by
  rw [cipherCommand_of_not_ready f hr]
  cases he : s.err with
  | true => rw [unlessError_of_err _ he]; exact ⟨rfl, rfl⟩
  | false => rw [unlessError_of_ok _ he]; exact ⟨rfl, rfl⟩

/-- A block below `LEN`/8 is aligned and lies below `LEN`, inside `BUF` (rules R54, R55). -/
theorem blockAddr_within {s : State} {blk : Word} (hr : CipherReady s) (hb : blk.toNat < s.len.toNat / 8) :
    blockAddr blk % 8 = 0 ∧ blockAddr blk + 8 ≤ s.len.toNat ∧ blockAddr blk + 8 ≤ s.bufcap.bytes := by
  obtain ⟨-, -, -, hcap⟩ := hr
  simp only [blockAddr]
  omega

/-- Settles O19: the accesses byte by byte, the commands by their checks. -/
theorem bufferPrimitivesReadAndWriteBytes : Obligations.BufferPrimitivesReadAndWriteBytes := by
  refine ⟨fun _ _ => rfl, fun _ _ => rfl, bufByte_memWrite1, fun s a v => ?_, fun c s hc hr => ?_,
    fun _ _ => blockAddr_within⟩
  · exact ⟨bufByte_memWrite8_inside s a v, fun _ hx => bufByte_writeBytes8_outside s a (bytes64 v) hx,
      memRead8_memWrite8_same s a v⟩
  · obtain ⟨f, hf⟩ := exec_cipher hc
    exact ⟨_, hf s, cipherCommand_buf_blk_of_not_ready f hr⟩

end Sys2Proof.Machine

/-! PROOF. The statements on the encoding (`30_encoding.md`): the seven command words and no others (rules R72, R75), and
the round trip of the access sequences of rule R79, which rests on each stage of the cipher undoing its counterpart. -/

namespace Sys2Proof.Machine

/-! ### Decode and encode (rules R70 to R75) -/

theorem wordOfBytes_eq_some_iff {bs : List Byte} {w : Word} : wordOfBytes bs = some w ↔ bs = wordBytes w := by
  constructor
  · intro h
    obtain ⟨b0, b1, b2, b3, rfl⟩ := List.length_eq_four.mp (length_of_wordOfBytes_eq_some h)
    obtain rfl : join32 b0 b1 b2 b3 = w := Option.some.inj h
    simp [wordBytes]
  · rintro rfl
    exact wordOfBytes_wordBytes w

/-- A row of the opcode map selects one exact word, its command's (rule R72). -/
theorem opcodeMap_row : ∀ r ∈ opcodeMap, r.mask = BitVec.allOnes 32 ∧ r.pattern = encode r.command := by decide

@[simp] theorem decode_encode (c : Instr) : decode (encode c) = .ok c :=
  (decodeBytes_wordBytes (encode c)).symm.trans (decodeBytes_encodeBytes c)

theorem decode_eq_ok_iff {w : Word} {c : Instr} : decode w = .ok c ↔ w = encode c := by
  constructor
  · intro h
    unfold decode at h
    split at h
    · next r hr =>
      obtain ⟨hmask, hpattern⟩ := opcodeMap_row r (List.mem_of_find?_eq_some hr)
      have hw : w &&& r.mask = r.pattern := by simpa using List.find?_some hr
      cases h
      rwa [hmask, BitVec.and_allOnes, hpattern] at hw
    · cases h
  · rintro rfl
    exact decode_encode c

theorem decodeBytes_eq_ok_iff {bs : List Byte} {c : Instr} : decodeBytes bs = .ok c ↔ bs = encodeBytes c := by
  constructor
  · intro h
    unfold decodeBytes at h
    split at h
    · next w hw => rw [wordOfBytes_eq_some_iff.mp hw, decode_eq_ok_iff.mp h, encodeBytes]
    · cases h
  · rintro rfl
    exact decodeBytes_encodeBytes c

/-- The command words are the numbers 0 to 6 (rule R72). -/
theorem exists_eq_encode_iff {w : Word} : (∃ c, w = encode c) ↔ w.toNat ≤ 6 := by
  constructor
  · rintro ⟨c, rfl⟩
    cases c <;> decide
  · intro h
    obtain rfl | rfl | rfl | rfl | rfl | rfl | rfl :
        w = 0 ∨ w = 1 ∨ w = 2 ∨ w = 3 ∨ w = 4 ∨ w = 5 ∨ w = 6 := by bv_omega
    exacts [⟨.nop, rfl⟩, ⟨.seedx, rfl⟩, ⟨.seedld, rfl⟩, ⟨.kexp, rfl⟩, ⟨.enc, rfl⟩, ⟨.dec, rfl⟩, ⟨.clr, rfl⟩]

theorem exists_decode_eq_ok_iff {w : Word} : (∃ c, decode w = .ok c) ↔ w.toNat ≤ 6 := by
  simp only [decode_eq_ok_iff, exists_eq_encode_iff]

/-- Settles O3: only four bytes make a word, and only the command's own row selects it. -/
theorem onlyItsEncodingDecodesToACommand : Obligations.OnlyItsEncodingDecodesToACommand :=
  fun _ _ _ => decodeBytes_eq_ok_iff

/-- Settles O2: a word that decodes is one of 0 to 6. -/
theorem decodeIsIllegalExactlyAboveSix : Obligations.DecodeIsIllegalExactlyAboveSix := by
  intro w
  have hok := exists_decode_eq_ok_iff (w := w)
  cases hd : decode w with
  | ok c =>
    have hle : w.toNat ≤ 6 := hok.mp ⟨c, hd⟩
    exact ⟨.inl ⟨c, rfl⟩, by simpa using hle⟩
  | error r =>
    have hgt : 6 < w.toNat := by simpa [hd] using hok
    exact ⟨.inr ⟨r, rfl⟩, by simpa using hgt⟩

/-- Settles O1: each word is its command's `encode`, each byte string its `encodeBytes`. -/
theorem eachCommandWordDecodes : Obligations.EachCommandWordDecodes :=
  ⟨decode_encode .nop, decode_encode .seedx, decode_encode .seedld, decode_encode .kexp, decode_encode .enc,
    decode_encode .dec, decode_encode .clr,
    decodeBytes_encodeBytes .nop, decodeBytes_encodeBytes .seedx, decodeBytes_encodeBytes .seedld,
    decodeBytes_encodeBytes .kexp, decodeBytes_encodeBytes .enc, decodeBytes_encodeBytes .dec,
    decodeBytes_encodeBytes .clr⟩

/-! ### Decryption undoes encryption on a block (rules R125, R132) -/

section
variable (k : Key) (blk : Word)

/-- The sum of the eight key bytes of a block (rule R125). -/
def keyByteSum : Byte :=
  roundKeyByte k blk 0 + roundKeyByte k blk 1 + roundKeyByte k blk 2 + roundKeyByte k blk 3 +
  roundKeyByte k blk 4 + roundKeyByte k blk 5 + roundKeyByte k blk 6 + roundKeyByte k blk 7

theorem subKeyBytes_eq (x : Byte) : subKeyBytes k blk x = (x + 0xC0) - keyByteSum k blk := by
  simp only [subKeyBytes, upTo8, List.foldl, keyByteSum]
  grind

theorem addKeyBytes_eq (x : Byte) : addKeyBytes k blk x = (x + 0x40) + keyByteSum k blk := by
  simp only [addKeyBytes, upTo8, List.foldl, keyByteSum]
  grind

theorem roundDec_zero (b : Block) : (roundDec k blk b)[0] = subKeyBytes k blk (xorStart blk ^^^ b[0]) := by
  simp [roundDec, upTo8, roundDecAt]

theorem roundDec_succ (b : Block) {o : Nat} (h : o + 1 < 8) :
    (roundDec k blk b)[o + 1] = subKeyBytes k blk (b[o] ^^^ b[o + 1]) := by
  obtain rfl | rfl | rfl | rfl | rfl | rfl | rfl :
    o = 0 ∨ o = 1 ∨ o = 2 ∨ o = 3 ∨ o = 4 ∨ o = 5 ∨ o = 6 := by omega
  all_goals simp [roundDec, upTo8, roundDecAt]

theorem roundEnc_zero (b : Block) : (roundEnc k blk b)[0] = xorStart blk ^^^ addKeyBytes k blk b[0] := by
  simp [roundEnc, upTo8, roundEncAt]

theorem roundEnc_succ (b : Block) {o : Nat} (h : o + 1 < 8) :
    (roundEnc k blk b)[o + 1] = (roundEnc k blk b)[o] ^^^ addKeyBytes k blk b[o + 1] := by
  obtain rfl | rfl | rfl | rfl | rfl | rfl | rfl :
    o = 0 ∨ o = 1 ∨ o = 2 ∨ o = 3 ∨ o = 4 ∨ o = 5 ∨ o = 6 := by omega
  all_goals simp [roundEnc, upTo8, roundEncAt]

@[simp] theorem subKeyBytes_addKeyBytes (x : Byte) : subKeyBytes k blk (addKeyBytes k blk x) = x := by
  rw [subKeyBytes_eq, addKeyBytes_eq]
  grind

@[simp] theorem roundDec_roundEnc (b : Block) : roundDec k blk (roundEnc k blk b) = b := by
  refine Vector.ext fun i hi => ?_
  cases i with
  | zero => rw [roundDec_zero, roundEnc_zero, xor_cancel_left, subKeyBytes_addKeyBytes]
  | succ o => rw [roundDec_succ, roundEnc_succ, xor_cancel_left, subKeyBytes_addKeyBytes]

@[simp] theorem finalDec_finalEnc (b : Block) : finalDec k blk (finalEnc k blk b) = b := by
  rw [finalDec, finalEnc, le64_bytes64, BitVec.add_sub_cancel, xor_cancel_left, bytes64_le64, swapHalves_swapHalves]

@[simp] theorem decBlock_encBlock (b : Block) : decBlock k blk (encBlock k blk b) = b := by
  rw [decBlock, encBlock, roundDec_roundEnc, finalDec_finalEnc]

end

/-! ### Two passes under one key -/

/-- A pass transforms each block of the payload (rule R134). -/
theorem readBytes8_cipherPass (f : Key → Word → Block → Block) (s : State) {j : Nat} (hj : j < s.len.toNat / 8) :
    readBytes8 (cipherPass f s) (8 * j) = f s.key (BitVec.ofNat 32 j) (readBytes8 s (8 * j)) :=
  cipherSteps_block f (s.len.toNat / 8) (setBlk 0 s) (by omega) rfl hj

/-- A pass over the memory another pass left, under the same key and length, restores every byte when its block function
undoes the other's. -/
theorem cipherPass_undoes_cipherPass {f g : Key → Word → Block → Block} {s t : State}
    (hinv : ∀ blk b, g s.key blk (f s.key blk b) = b) (hlen8 : s.len.toNat % 8 = 0)
    (hkey : t.key = s.key) (hlen : t.len = s.len) (hbuf : ∀ a, t.bufByte a = (cipherPass f s).bufByte a) (x : Nat) :
    (cipherPass g t).bufByte x = s.bufByte x := by
  by_cases hx : x < s.len.toNat
  · have hblock : readBytes8 t (8 * (x / 8)) = f s.key (BitVec.ofNat 32 (x / 8)) (readBytes8 s (8 * (x / 8))) :=
      (readBytes8_congr fun _ _ => hbuf _).trans (readBytes8_cipherPass f s (by omega))
    rw [cipherPass_bufByte_payload g t (hlen ▸ hlen8) (hlen ▸ hx), hkey, hblock]
    simp only [hinv]
    rw [readBytes8_getElem, Nat.div_add_mod]
  · rw [cipherPass_bufByte_above g t (by rw [hlen]; omega), hbuf, cipherPass_bufByte_above f s (by omega)]

/-! ### Seed, key, pass: the sequence of rule R79 -/

/-- The state with the seed `v` loaded and expanded. -/
def seedAndExpand (v : DWord) (s : State) : State := loadKey (keyExpand v) (loadSeed v s)

@[simp] theorem seedAndExpand_hdr (v : DWord) (s : State) : (seedAndExpand v s).hdr = s.hdr := rfl
@[simp] theorem seedAndExpand_len (v : DWord) (s : State) : (seedAndExpand v s).len = s.len := rfl
@[simp] theorem seedAndExpand_err (v : DWord) (s : State) : (seedAndExpand v s).err = s.err := rfl
@[simp] theorem seedAndExpand_bufcap (v : DWord) (s : State) : (seedAndExpand v s).bufcap = s.bufcap := rfl

/-- `HDR[0..7]` of a header (rule R57). -/
def hdrPrefix (h : Hdr) : Block := #v[h[0], h[1], h[2], h[3], h[4], h[5], h[6], h[7]]

theorem hdrLow8_eq (s : State) : hdrLow8 s = hdrPrefix s.hdr := rfl

/-- SEEDX and SEEDLD load a seed that is a function of `HDR` (rules R91, R93). -/
theorem exec_seed {c : Instr} (hc : c = .seedx ∨ c = .seedld) :
    ∃ seedOf : Hdr → DWord, ∀ s, s.err = false → exec c s = .next (loadSeed (seedOf s.hdr) s) := by
  obtain rfl | rfl := hc
  · exact ⟨seedExtract, fun s he => by simp [exec, execSeedx, he]⟩
  · exact ⟨fun h => seedLiteral (hdrPrefix h), fun s he => by simp [exec, execSeedld, he, hdrLow8_eq]⟩

theorem exec_kexp_loadSeed (v : DWord) {s : State} (he : s.err = false) :
    exec .kexp (loadSeed v s) = .next (seedAndExpand v s) := by
  simp [exec, execKexp, he, keyExpandOver_eq, seedAndExpand]

theorem cipherReady_seedAndExpand (v : DWord) {s : State} (he : s.err = false) (hlen8 : s.len.toNat % 8 = 0)
    (hcap : s.len.toNat ≤ s.bufcap.bytes) : CipherReady (seedAndExpand v s) := ⟨he, rfl, hlen8, hcap⟩

theorem exec_enc_of_ready {s : State} (hr : CipherReady s) : exec .enc s = .next (cipherPass encBlock s) :=
  congrArg Host.Outcome.next (cipherCommand_of_ready encBlock hr)

theorem exec_dec_of_ready {s : State} (hr : CipherReady s) : exec .dec s = .next (cipherPass decBlock s) :=
  congrArg Host.Outcome.next (cipherCommand_of_ready decBlock hr)

/-- DEC after ENC, both under the key of the same seed, restores the memory (rules R79, R120). -/
theorem bufByte_decrypt_encrypt (v : DWord) (s : State) (hlen8 : s.len.toNat % 8 = 0) (x : Nat) :
    (cipherPass decBlock (seedAndExpand v (cipherPass encBlock (seedAndExpand v s)))).bufByte x = s.bufByte x :=
  cipherPass_undoes_cipherPass (s := seedAndExpand v s)
    (t := seedAndExpand v (cipherPass encBlock (seedAndExpand v s)))
    (fun _ _ => decBlock_encBlock ..) hlen8 rfl (cipherPass_len ..) (fun _ => rfl) x

/-- Settles O46: the first pass leaves `HDR`, so the second seed command loads the same seed and the second pass runs
under the same key. -/
theorem roundTripThroughTheCommands : Obligations.RoundTripThroughTheCommands := by
  intro s seedCmd hseed he hlen8 hcap
  obtain ⟨seedOf, hload⟩ := exec_seed hseed
  have hready := cipherReady_seedAndExpand (seedOf s.hdr) he hlen8 hcap
  obtain ⟨c, hc⟩ : ∃ c, c = cipherPass encBlock (seedAndExpand (seedOf s.hdr) s) := ⟨_, rfl⟩
  have hhdr : c.hdr = s.hdr := by simp [hc]
  have herr : c.err = false := by simp [hc, he]
  have hlen : c.len = s.len := by simp [hc]
  have hbufcap : c.bufcap = s.bufcap := by simp [hc]
  have hload' : exec seedCmd c = .next (loadSeed (seedOf s.hdr) c) := hhdr ▸ hload c herr
  have hready' : CipherReady (seedAndExpand (seedOf s.hdr) c) :=
    cipherReady_seedAndExpand _ herr (by rwa [hlen]) (by rwa [hlen, hbufcap])
  refine ⟨_, _, c, _, _, _, hload s he, exec_kexp_loadSeed _ he, hc ▸ exec_enc_of_ready hready,
    hload', exec_kexp_loadSeed _ herr, exec_dec_of_ready hready', by simp [herr], fun x => ?_⟩
  rw [hc, bufByte_decrypt_encrypt _ _ hlen8]

end Sys2Proof.Machine

/-! PROOF. The statements on the SeedExtractor (`40_seed_extractor.md`): the extracted seed as a joined word (rules R90,
R94), and the two seed commands (rules R91, R93). -/

namespace Sys2Proof.Machine

/-! ### The extracted seed (rules R90, R94) -/

theorem zext64_eq_join64 (v : Word) : zext64 v = join64 v 0 := BitVec.setWidth_eq_append (by omega)

theorem seedExtract_eq_or (h : Hdr) : seedExtract h =
    ((h[9].setWidth 64 <<< 24) ||| (h[12].setWidth 64 <<< 16) ||| (h[2].setWidth 64 <<< 8) ||| h[0].setWidth 64) := by
  simp only [seedExtract, seedField, BitVec.shiftLeft_zero]

/-- The four fields stand side by side: the seed is the 32-bit word of bytes 0, 2, 12 and 9, under a zero high half. -/
theorem seedExtract_eq_join64 (h : Hdr) : seedExtract h = join64 (join32 h[0] h[2] h[12] h[9]) 0 := by
  rw [seedExtract_eq_or, ← zext64_eq_join64]
  change _ = BitVec.setWidth 64 (h[9] ++ h[12] ++ h[2] ++ h[0])
  rw [BitVec.setWidth_append_append_append_eq_shiftLeft_setWidth_or]

theorem seedExtract_toNat (h : Hdr) : (seedExtract h).toNat =
    h[9].toNat * 2 ^ 24 + h[12].toNat * 2 ^ 16 + h[2].toNat * 2 ^ 8 + h[0].toNat := by
  have hhigh : (0 : Word).toNat = 0 := rfl
  rw [seedExtract_eq_join64, join64_toNat, join32_toNat, hhigh]
  omega

theorem high32_seedExtract (h : Hdr) : high32 (seedExtract h) = 0 := by
  rw [seedExtract_eq_join64, high32_join64]

theorem seedExtract_congr {h g : Hdr} (h0 : h[0] = g[0]) (h2 : h[2] = g[2]) (h9 : h[9] = g[9]) (h12 : h[12] = g[12]) :
    seedExtract h = seedExtract g := by
  rw [seedExtract_eq_join64, seedExtract_eq_join64, h0, h2, h9, h12]

/-- Settles O24: the four fields do not overlap, so their OR is a word of four bytes. -/
theorem seedExtractSumsFourBytes : Obligations.SeedExtractSumsFourBytes :=
  ⟨seedExtract_eq_or, seedExtract_toNat, high32_seedExtract, fun _ _ => seedExtract_congr⟩

/-- Settles O25: a header byte is a byte of `A` or of `B`, and so are the four selected ones. -/
theorem seedExtractFromHeaderFields : Obligations.SeedExtractFromHeaderFields := by
  intro h a b
  have hA (i : Fin 8) : h[i.val] = a.extractLsb' (8 * i.val) 8 := by
    simpa [byteAt] using (byteAt_word64 h 0 (by omega) i.isLt).symm
  have hB (i : Fin 8) : h[8 + i.val] = b.extractLsb' (8 * i.val) 8 := (byteAt_word64 h 1 (by omega) i.isLt).symm
  refine ⟨fun i => ⟨hA i, hB i⟩, ?_⟩
  have h0 : h[0] = a.extractLsb' 0 8 := hA 0
  have h2 : h[2] = a.extractLsb' 16 8 := hA 2
  have h9 : h[9] = b.extractLsb' 8 8 := hB 1
  have h12 : h[12] = b.extractLsb' 32 8 := hB 4
  rw [seedExtract_eq_or, h0, h2, h9, h12]

/-! ### The seed commands (rules R91, R93) -/

theorem exec_seedx (s : State) : exec .seedx s = .next (unlessError s (loadSeed (seedExtract s.hdr) s)) := rfl

theorem exec_seedld (s : State) :
    exec .seedld s = .next (unlessError s (loadSeed (seedLiteral (hdrPrefix s.hdr)) s)) := rfl

theorem seedLiteral_hdrPrefix_toNat (h : Hdr) : (seedLiteral (hdrPrefix h)).toNat =
    h[0].toNat + h[1].toNat * 2 ^ 8 + h[2].toNat * 2 ^ 16 + h[3].toNat * 2 ^ 24 +
    h[4].toNat * 2 ^ 32 + h[5].toNat * 2 ^ 40 + h[6].toNat * 2 ^ 48 + h[7].toNat * 2 ^ 56 :=
  word64_toNat (hdrPrefix h) 0 (by omega)

/-- Settles O22: the seed loaded is the sum of the four bytes. -/
theorem seedxLoadsTheSelectedBytes : Obligations.SeedxLoadsTheSelectedBytes := by
  refine ⟨fun s he => ?_, fun s he => ?_⟩
  · rw [exec_seedx, unlessError_of_err _ he]
  · rw [exec_seedx, unlessError_of_ok _ he, ← seedExtract_toNat, BitVec.ofNat_toNat, BitVec.setWidth_eq,
      loadSeed]

/-- Settles O23: the seed loaded is the sum of the eight bytes by place value. -/
theorem seedldLoadsTheLittleEndianPrefix : Obligations.SeedldLoadsTheLittleEndianPrefix := by
  refine ⟨fun s he => ?_, fun s he => ?_⟩
  · rw [exec_seedld, unlessError_of_err _ he]
  · rw [exec_seedld, unlessError_of_ok _ he, ← seedLiteral_hdrPrefix_toNat, BitVec.ofNat_toNat, BitVec.setWidth_eq,
      loadSeed]

end Sys2Proof.Machine

/-! PROOF. The statements on the KeySchedule (`41_key_schedule.md`): the first words as a permutation of the seed's bytes
(rule R104), the byte mixing and its inverse (rules R105, R111), the closed form of the expansion (rules R107, R109), the
command KEXP (rules R110, R112). -/

namespace Sys2Proof.Machine

/-! ### Step 2: the seed's bytes, permuted (rule R104) -/

theorem bswap32_join32 (b0 b1 b2 b3 : Byte) : bswap32 (join32 b0 b1 b2 b3) = join32 b3 b2 b1 b0 := by
  simp only [bswap32, byteAt_join32_0, byteAt_join32_1, byteAt_join32_2, byteAt_join32_3]
  rfl

/-- A rotation puts the low `r` bits above the others. -/
theorem rotr32_toNat (x : Word) {r : Nat} (hr : r ≤ 32) :
    (rotr32 x r).toNat = x.toNat / 2 ^ r + x.toNat % 2 ^ r * 2 ^ (32 - r) := by
  have hpow : 2 ^ 32 = 2 ^ r * 2 ^ (32 - r) := by rw [← Nat.pow_add, Nat.add_sub_cancel' hr]
  have hlow : x.toNat / 2 ^ r < 2 ^ (32 - r) := Nat.div_lt_of_lt_mul (hpow ▸ x.isLt)
  rw [rotr32, BitVec.toNat_or, BitVec.toNat_ushiftRight, BitVec.toNat_shiftLeft, Nat.shiftRight_eq_div_pow,
    Nat.shiftLeft_eq, hpow, Nat.mul_mod_mul_right, Nat.or_comm, ← Nat.shiftLeft_eq,
    ← Nat.shiftLeft_add_eq_or_of_lt hlow, Nat.add_comm]

theorem rotl32_eq_rotr32 (x : Word) {r : Nat} (hr : r ≤ 32) : rotl32 x r = rotr32 x (32 - r) := by
  rw [rotl32, rotr32, Nat.sub_sub_self hr, BitVec.or_comm]

/-- A rotation by 16 swaps the halves of the word. -/
theorem rotr32_join32 (b0 b1 b2 b3 : Byte) : rotr32 (join32 b0 b1 b2 b3) 16 = join32 b2 b3 b0 b1 := by
  apply BitVec.eq_of_toNat_eq
  rw [rotr32_toNat _ (by omega), join32_toNat, join32_toNat]
  omega

/-- A rotation left by 8 brings the highest byte down to the lowest place. -/
theorem rotl32_join32 (b0 b1 b2 b3 : Byte) : rotl32 (join32 b0 b1 b2 b3) 8 = join32 b3 b0 b1 b2 := by
  apply BitVec.eq_of_toNat_eq
  rw [rotl32_eq_rotr32 _ (by omega), rotr32_toNat _ (by omega), join32_toNat, join32_toNat]
  omega

theorem loSeed_eq_join32 (s : DWord) : loSeed s = join32 (byteAt s 0) (byteAt s 1) (byteAt s 2) (byteAt s 3) := by
  rw [← join32_byteAt (loSeed s)]
  simp only [loSeed, byteAt_low32, Nat.reduceLT]

theorem hiSeed_eq_join32 (s : DWord) : hiSeed s = join32 (byteAt s 4) (byteAt s 5) (byteAt s 6) (byteAt s 7) := by
  rw [← join32_byteAt (hiSeed s)]
  simp only [hiSeed, byteAt_high32, Nat.reduceLT, Nat.reduceAdd]

/-- Word 0 of step 2, lowest byte first. -/
theorem firstWord_eq_join32 (s : DWord) :
    rotr32 (bswap32 (loSeed s)) 16 = join32 (byteAt s 1) (byteAt s 0) (byteAt s 3) (byteAt s 2) := by
  rw [loSeed_eq_join32, bswap32_join32, rotr32_join32]

/-- Word 1 of step 2, lowest byte first. -/
theorem secondWord_eq_join32 (s : DWord) :
    rotl32 (bswap32 (hiSeed s)) 8 = join32 (byteAt s 4) (byteAt s 7) (byteAt s 6) (byteAt s 5) := by
  rw [hiSeed_eq_join32, bswap32_join32, rotl32_join32]

/-- The eight bytes step 2 leaves (rule R104). -/
def permutedSeed (s : DWord) : Block :=
  #v[byteAt s 1, byteAt s 0, byteAt s 3, byteAt s 2, byteAt s 4, byteAt s 7, byteAt s 6, byteAt s 5]

/-- Step 2 in a store of any size, whatever it held. -/
theorem getElem_firstWords {n : Nat} (k : Vector Byte n) (s : DWord) (h : 8 ≤ n) {x : Nat} (hx : x < 8) :
    (firstWords k s h)[x] = (permutedSeed s)[x] := by
  simp only [firstWords, getElem_setWord32, firstWord_eq_join32, secondWord_eq_join32]
  obtain rfl | rfl | rfl | rfl | rfl | rfl | rfl | rfl :
    x = 0 ∨ x = 1 ∨ x = 2 ∨ x = 3 ∨ x = 4 ∨ x = 5 ∨ x = 6 ∨ x = 7 := by omega
  all_goals simp [permutedSeed]

theorem bytes64_injective : Function.Injective bytes64 := Function.LeftInverse.injective le64_bytes64

theorem permutedSeed_injective : Function.Injective permutedSeed := by
  intro s t h
  apply bytes64_injective
  simp only [permutedSeed, Vector.mk.injEq, Array.mk.injEq, List.cons.injEq, and_true] at h
  obtain ⟨h1, h0, h3, h2, h4, h7, h6, h5⟩ := h
  simp only [bytes64, h0, h1, h2, h3, h4, h5, h6, h7]

/-- Settles O28: the seed's two halves as joined bytes, and the bytes of the two words written. -/
theorem firstWordsPermuteTheSeedBytes : Obligations.FirstWordsPermuteTheSeedBytes := by
  refine ⟨fun k s => ?_, fun s => ?_, fun k => ?_⟩
  · have hbyte (x : Fin 8) : (firstWords k s)[x.val] = (permutedSeed s)[x.val] := getElem_firstWords k s _ x.isLt
    exact ⟨hbyte 0, hbyte 1, hbyte 2, hbyte 3, hbyte 4, hbyte 5, hbyte 6, hbyte 7⟩
  · refine ⟨?_, firstWord_eq_join32 s, ?_, secondWord_eq_join32 s⟩
    · rw [loSeed_eq_join32, bswap32_join32]; rfl
    · rw [hiSeed_eq_join32, bswap32_join32]; rfl
  · have hlo : rotr32 (bswap32 (loSeed 0x0123456789ABCDEF)) 16 = 0xAB89EFCD := by decide
    have hhi : rotl32 (bswap32 (hiSeed 0x0123456789ABCDEF)) 8 = 0x45230167 := by decide
    rw [firstWords, hlo, hhi, word32_setWord32_ne _ _ _ _ (by decide), word32_setWord32_same, word32_setWord32_same]
    exact ⟨rfl, rfl⟩

/-! ### Step 3: each byte from the mixed byte before it (rule R105) -/

section Mixing

variable {n : Nat} (k : Vector Byte n)

theorem mixBytes_zero (h : 0 < n) : mixBytes k 0 h = k.set 0 (k[0] + 0x45) := rfl

theorem mixBytes_succ {m : Nat} (h : m + 1 < n) : mixBytes k (m + 1) h =
    (mixBytes k m (by omega)).set (m + 1) (mixByte (mixBytes k m (by omega))[m] (mixBytes k m (by omega))[m + 1]) := rfl

theorem getElem_mixBytes_above {m : Nat} (h : m < n) {x : Nat} (hx : x < n) (hm : m < x) : (mixBytes k m h)[x] = k[x] := by
  induction m with
  | zero => rw [mixBytes_zero, Vector.getElem_set_ne _ _ (by omega)]
  | succ m ih => rw [mixBytes_succ, Vector.getElem_set_ne _ _ (by omega), ih (by omega) (by omega)]

/-- Byte 0 is written once, first. -/
theorem getElem_mixBytes_zero {m : Nat} (h : m < n) : (mixBytes k m h)[0] = k[0] + 0x45 := by
  induction m with
  | zero => rw [mixBytes_zero, Vector.getElem_set_self]
  | succ m ih => rw [mixBytes_succ, Vector.getElem_set_ne _ _ (by omega), ih (by omega)]

/-- Byte `i + 1` is written once, right after byte `i`. -/
theorem getElem_mixBytes_succ {m i : Nat} (h : m < n) (hi : i < m) :
    (mixBytes k m h)[i + 1] = mixByte (mixBytes k m h)[i] k[i + 1] := by
  induction m with
  | zero => omega
  | succ m ih =>
    rw [mixBytes_succ, Vector.getElem_set_ne (i := m + 1) (j := i) _ _ (by omega)]
    obtain rfl | hlt := Nat.eq_or_lt_of_le (Nat.le_of_lt_succ hi)
    · rw [Vector.getElem_set_self, getElem_mixBytes_above k _ h (Nat.lt_succ_self i)]
    · rw [Vector.getElem_set_ne _ _ (by omega), ih (by omega) hlt]

end Mixing

/-- Settles O29: the equations of the mixed bytes, and their values from eight zeros one after the other. -/
theorem mixingChainsBytesZeroToSeven : Obligations.MixingChainsBytesZeroToSeven := by
  refine ⟨fun k => ⟨getElem_mixBytes_zero k _, fun i => getElem_mixBytes_succ k _ i.isLt,
    fun x hx => getElem_mixBytes_above k _ x.isLt hx⟩, fun k hzero => ?_⟩
  have h0 : (mixBytes k 7 (by omega))[0] = 0x45 := (getElem_mixBytes_zero k _).trans (congrArg (· + 0x45) (hzero 0))
  have hnext {i : Nat} (hi : i < 7) {v w : Byte} (hv : (mixBytes k 7 (by omega))[i] = v) (hw : mixByte v 0 = w) :
      (mixBytes k 7 (by omega))[i + 1] = w := by
    rw [getElem_mixBytes_succ k _ hi, hv, ← hw]
    exact congrArg _ (hzero ⟨i + 1, by omega⟩)
  have h1 := hnext (w := 0x48) (by omega) h0 rfl
  have h2 := hnext (w := 0x79) (by omega) h1 rfl
  have h3 := hnext (w := 0xEC) (by omega) h2 rfl
  have h4 := hnext (w := 0x35) (by omega) h3 rfl
  have h5 := hnext (w := 0x98) (by omega) h4 rfl
  have h6 := hnext (w := 0x49) (by omega) h5 rfl
  have h7 := hnext (w := 0x7C) (by omega) h6 rfl
  exact ⟨h0, h1, h2, h3, h4, h5, h6, h7⟩

/-! ### Steps 2 and 3: the first key word is the seed under a bijection (rules R110, R111) -/

/-- Two words are equal when their eight bytes are, between stores of any two sizes. -/
theorem word64_eq_iff {n n' : Nat} {k : Vector Byte n} {l : Vector Byte n'} {j : Nat} {hk : 8 * j + 8 ≤ n}
    {hl : 8 * j + 8 ≤ n'} :
    word64 k j hk = word64 l j hl ↔ ∀ (r : Nat) (_ : r < 8), k[8 * j + r] = l[8 * j + r] := by
  constructor
  · intro h r hr
    rw [← byteAt_word64 k j hk hr, h, byteAt_word64 l j hl hr]
  · intro h
    have h0 : k[8 * j] = l[8 * j] := h 0 (by omega)
    apply BitVec.eq_of_toNat_eq
    rw [word64_toNat, word64_toNat, h0, h 1 (by omega), h 2 (by omega), h 3 (by omega), h 4 (by omega), h 5 (by omega),
      h 6 (by omega), h 7 (by omega)]

theorem word64_zero_eq_iff {n n' : Nat} {k : Vector Byte n} {l : Vector Byte n'} {hk : 8 ≤ n} {hl : 8 ≤ n'} :
    word64 k 0 hk = word64 l 0 hl ↔ ∀ (r : Nat) (_ : r < 8), k[r] = l[r] := by
  simpa using word64_eq_iff (k := k) (l := l) (j := 0) (hk := hk) (hl := hl)

theorem mixByte_right_inj {before a b : Byte} : mixByte before a = mixByte before b ↔ a = b := by
  rw [mixByte, mixByte, BitVec.xor_left_inj, BitVec.xor_left_inj, BitVec.add_right_inj]

/-- Step 3 maps the first word to the first word and loses nothing: each line is undone from the byte before it. -/
theorem word64_mixBytes_eq_iff {n n' : Nat} (k : Vector Byte n) (l : Vector Byte n') (hk : 8 ≤ n) (hl : 8 ≤ n') :
    word64 (mixBytes k 7 (by omega)) 0 = word64 (mixBytes l 7 (by omega)) 0 ↔ word64 k 0 = word64 l 0 := by
  rw [word64_zero_eq_iff, word64_zero_eq_iff]
  constructor
  · intro h x hx
    cases x with
    | zero => simpa [getElem_mixBytes_zero] using h 0 hx
    | succ i =>
      have hmixed := h (i + 1) hx
      rwa [getElem_mixBytes_succ k _ (by omega), getElem_mixBytes_succ l _ (by omega), h i (by omega),
        mixByte_right_inj] at hmixed
  · intro h x hx
    induction x with
    | zero => rw [getElem_mixBytes_zero, getElem_mixBytes_zero, h 0 hx]
    | succ i ih =>
      rw [getElem_mixBytes_succ k _ (by omega), getElem_mixBytes_succ l _ (by omega), ih (by omega), h (i + 1) hx]

/-- Word 0 of the expanded key: the permuted bytes of the seed, mixed. -/
def firstKeyWord (s : DWord) : DWord := le64 (mixBytes (permutedSeed s) 7 (by omega))

/-- Steps 2 and 3 in a store of any size, whatever it held. -/
theorem word64_mixBytes_firstWords {n : Nat} (k : Vector Byte n) (s : DWord) (h : 8 ≤ n) :
    word64 (mixBytes (firstWords k s h) 7 (by omega)) 0 = firstKeyWord s :=
  (word64_mixBytes_eq_iff _ _ h (by omega)).mpr (word64_zero_eq_iff.mpr fun _ => getElem_firstWords k s h)

theorem le64_injective : Function.Injective le64 := Function.LeftInverse.injective bytes64_le64

theorem firstKeyWord_injective : Function.Injective firstKeyWord := fun _ _ h =>
  permutedSeed_injective (le64_injective ((word64_mixBytes_eq_iff _ _ (by omega) (by omega)).mp h))

/-! ### Step 4: each pair is five times the pair before it (rule R109) -/

@[simp] theorem low32_xor (v w : DWord) : low32 (v ^^^ w) = low32 v ^^^ low32 w := BitVec.extractLsb'_xor

@[simp] theorem high32_xor (v w : DWord) : high32 (v ^^^ w) = high32 v ^^^ high32 w := BitVec.extractLsb'_xor

theorem zext64_shiftLeft_eq_join64 (v : Word) : zext64 v <<< 32 = join64 0 v := by
  apply BitVec.eq_of_toNat_eq
  rw [join64_toNat]
  simp [zext64, Nat.shiftLeft_eq]
  omega

/-- A low half put below the high half of another value. -/
theorem low32_zext64_or_and (v : Word) (w : DWord) : low32 (zext64 v ||| (w &&& 0xFFFFFFFF00000000)) = v := by
  have hmask : low32 0xFFFFFFFF00000000 = 0 := by decide
  rw [low32, BitVec.extractLsb'_or, BitVec.extractLsb'_and, ← low32, ← low32, ← low32, hmask, zext64_eq_join64,
    low32_join64]
  simp

/-- The previous low word cancels out of the new one. -/
theorem expandLow_eq (lo hi : Word) : expandLow lo hi = low32 (5 * join64 lo hi) := by
  rw [expandLow, low32_zext64_or_and, xor_cancel_left, expandProduct, low32_xor, zext64_shiftLeft_eq_join64, low32_join64]
  simp

/-- The previous high word cancels out of the new one. -/
theorem expandHigh_eq (lo hi : Word) : expandHigh lo hi = high32 (5 * join64 lo hi) := by
  rw [expandHigh, expandProduct, high32_xor, zext64_shiftLeft_eq_join64, high32_join64, BitVec.xor_assoc]
  simp

section Expansion

variable {n : Nat} (k : Vector Byte n)

theorem word64_expandStep_new (it : Nat) (h : 8 * it + 16 ≤ n) :
    word64 (expandStep k it h) (it + 1) = 5 * word64 k it := by
  have hlow : word32 (expandStep k it h) (2 * (it + 1)) = low32 (5 * word64 k it) := by
    rw [expandStep_eq, word32_setWord32_ne _ _ _ _ (by omega)]
    exact (word32_setWord32_same ..).trans (expandLow_eq ..)
  have hhigh : word32 (expandStep k it h) (2 * (it + 1) + 1) = high32 (5 * word64 k it) := by
    rw [expandStep_eq]
    exact (word32_setWord32_same ..).trans (expandHigh_eq ..)
  rw [word64, hlow, hhigh, join64_low32_high32]

theorem getElem_expandStep_ne (it : Nat) (h : 8 * it + 16 ≤ n) {x : Nat} (hx : x < n) (hne : x / 8 ≠ it + 1) :
    (expandStep k it h)[x] = k[x] := by
  rw [expandStep_eq, getElem_setWord32, if_neg (by omega), getElem_setWord32, if_neg (by omega)]

theorem word64_expandStep_ne {it j : Nat} (h : 8 * it + 16 ≤ n) (hj : 8 * j + 8 ≤ n) (hne : j ≠ it + 1) :
    word64 (expandStep k it h) j hj = word64 k j hj := by
  simp (disch := omega) only [word64, expandStep_eq, word32_setWord32_ne]

theorem word64_expandSteps_zero {m : Nat} (h : 8 * m + 8 ≤ n) : word64 (expandSteps k m h) 0 = word64 k 0 := by
  induction m with
  | zero => rfl
  | succ m ih => rw [expandSteps, word64_expandStep_ne _ _ _ (by omega), ih]

theorem word64_expandSteps_succ {m j : Nat} (h : 8 * m + 8 ≤ n) (hj : j < m) :
    word64 (expandSteps k m h) (j + 1) = 5 * word64 (expandSteps k m h) j := by
  induction m with
  | zero => omega
  | succ m ih =>
    rw [expandSteps, word64_expandStep_ne (j := j) _ _ _ (by omega)]
    obtain rfl | hlt := Nat.eq_or_lt_of_le (Nat.le_of_lt_succ hj)
    · exact word64_expandStep_new ..
    · rw [word64_expandStep_ne _ _ _ (by omega), ih _ hlt]

/-- The closed form, in a store of any size that holds the words. -/
theorem word64_expandSteps {m j : Nat} (h : 8 * m + 8 ≤ n) (hj : j ≤ m) :
    word64 (expandSteps k m h) j = BitVec.ofNat 64 (5 ^ j) * word64 k 0 := by
  induction j with
  | zero => rw [word64_expandSteps_zero]; exact (BitVec.one_mul _).symm
  | succ j ih =>
    rw [word64_expandSteps_succ k h hj, ih (by omega), ← BitVec.mul_assoc, pow_succ', BitVec.ofNat_mul]
    rfl

end Expansion

/-- Settles O30: the new pair is the product, and the two writes stay within it. -/
theorem expansionWritesOnlyTheNewPair : Obligations.ExpansionWritesOnlyTheNewPair :=
  fun k it => ⟨word64_expandStep_new k it.val _, fun x => getElem_expandStep_ne k it.val _ x.isLt⟩

/-! ### The whole schedule (rules R107, R109 to R112) -/

/-- The closed form of the schedule, in a store of any size that holds the words. -/
theorem word64_expandInto {n : Nat} (k : Vector Byte n) {m j : Nat} (s : DWord) (h : 8 * m + 8 ≤ n) (hj : j ≤ m) :
    word64 (expandInto k m s h) j = BitVec.ofNat 64 (5 ^ j) * firstKeyWord s := by
  rw [expandInto, word64_expandSteps _ h hj, word64_mixBytes_firstWords]

theorem key64_keyExpand (s : DWord) (j : Fin 32) : key64 (keyExpand s) j = BitVec.ofNat 64 (5 ^ j.val) * firstKeyWord s :=
  word64_expandInto _ s _ (by omega)

theorem key64_keyExpand_zero (s : DWord) : key64 (keyExpand s) 0 = firstKeyWord s :=
  (key64_keyExpand s 0).trans (BitVec.one_mul _)

/-- Settles O31: by the recursion of step 4 from the word steps 2 and 3 leave. -/
theorem expandedKeyClosedForm : Obligations.ExpandedKeyClosedForm :=
  fun s k => ⟨(key64_keyExpand_zero s).trans (word64_mixBytes_firstWords k s _).symm,
    fun j => (key64_keyExpand s j).trans (congrArg _ (key64_keyExpand_zero s).symm),
    fun j => word64_expandSteps_succ _ (by omega) j.isLt⟩

/-- Settles O32: words 0 to 31 have the same closed form in both stores. -/
theorem thirtySecondIterationChangesNoKeyByte : Obligations.ThirtySecondIterationChangesNoKeyByte := by
  intro long k s x
  have hword : word64 (expandInto long 32 s) (x.val / 8) = word64 (expandInto k 31 s) (x.val / 8) := by
    rw [word64_expandInto long s _ (by omega), word64_expandInto k s _ (by omega)]
  have hbyte := word64_eq_iff.mp hword (x.val % 8) (by omega)
  simpa only [Nat.div_add_mod, keyExpandOver, Fin.getElem_fin] using hbyte

/-- Settles O33: the word is an injective function of the seed, and equal bytes make equal words. -/
theorem seedToFirstKeyWordIsABijection : Obligations.SeedToFirstKeyWordIsABijection := by
  have hinj : Function.Injective fun s : DWord => key64 (keyExpand s) 0 := by
    simp only [key64_keyExpand_zero]
    exact firstKeyWord_injective
  refine ⟨Finite.injective_iff_bijective.mp hinj, fun s t hne => ?_⟩
  by_contra! hsame
  exact hne (hinj (word64_zero_eq_iff.mpr fun r hr => hsame ⟨r, hr⟩))

/-- Settles O27: each byte written is a function of the seed, after any number of iterations. -/
theorem keyScheduleForgetsTheOldStore : Obligations.KeyScheduleForgetsTheOldStore :=
  ⟨keyExpandOver_congr, fun k l s m h x hx => expandInto_agreeBelow k l m s h x (by omega) hx⟩

theorem exec_kexp (s : State) :
    exec .kexp s = .next (unlessError s (if s.seedv then loadKey (keyExpand s.seed) s else raise .noseed s)) := by
  rw [← keyExpandOver_eq s.key]
  rfl

/-- Settles O26: one case per check of the command. -/
theorem kexpExpandsTheSeed : Obligations.KexpExpandsTheSeed := by
  refine ⟨fun s he => ?_, fun s he hv => ?_, fun s he hv => ?_⟩
  · rw [exec_kexp, unlessError_of_err _ he]
  · rw [exec_kexp, unlessError_of_ok _ he, if_neg (by simp [hv]), raise]
  · rw [exec_kexp, unlessError_of_ok _ he, if_pos hv, loadKey]

end Sys2Proof.Machine

/-! PROOF. The statements on the BlockCipher (`42_block_cipher.md`): the round in closed form and the inverses (rules
R125, R132), the final stage and the block key (rules R126 to R129, R135), the buffer functions block by block (rules
R120, R133, R134), the commands ENC and DEC (rules R136, R137). -/

namespace Sys2Proof.Machine

/-! ### Encryption undoes decryption on a block (rules R125, R132) -/

section
variable (k : Key) (blk : Word)

@[simp] theorem addKeyBytes_subKeyBytes (x : Byte) : addKeyBytes k blk (subKeyBytes k blk x) = x := by
  rw [addKeyBytes_eq, subKeyBytes_eq]
  grind

@[simp] theorem roundEnc_roundDec (b : Block) : roundEnc k blk (roundDec k blk b) = b := by
  refine Vector.ext fun i hi => ?_
  induction i with
  | zero => rw [roundEnc_zero, roundDec_zero, addKeyBytes_subKeyBytes, xor_cancel_left]
  | succ o ih => rw [roundEnc_succ, roundDec_succ, addKeyBytes_subKeyBytes, ih (by omega), xor_cancel_left]

@[simp] theorem finalEnc_finalDec (b : Block) : finalEnc k blk (finalDec k blk b) = b := by
  rw [finalEnc, finalDec, swapHalves_swapHalves, le64_bytes64, xor_cancel_left, BitVec.sub_add_cancel, bytes64_le64]

@[simp] theorem encBlock_decBlock (b : Block) : encBlock k blk (decBlock k blk b) = b := by
  rw [encBlock, decBlock, finalEnc_finalDec, roundEnc_roundDec]

end

/-- Settles O34: eight key bytes are added or subtracted as their sum, and each byte is chained to its neighbour. -/
theorem roundClosedForm : Obligations.RoundClosedForm := by
  intro k blk b sum start
  have hstart : xorStart blk = start := rfl
  have hsum : keyByteSum k blk = sum := rfl
  refine ⟨⟨?_, fun o => ?_⟩, ⟨?_, fun o => ?_⟩, roundDec_roundEnc k blk b, roundEnc_roundDec k blk b⟩
  · rw [roundDec_zero, subKeyBytes_eq, hstart, hsum, BitVec.xor_comm]
  · rw [roundDec_succ, subKeyBytes_eq, hsum, BitVec.xor_comm]
  · rw [roundEnc_zero, addKeyBytes_eq, hstart, hsum]
  · rw [roundEnc_succ, addKeyBytes_eq, hsum]

/-- Settles O35: the inverses of each stage, both ways round. -/
theorem roundAndFinalInvert : Obligations.RoundAndFinalInvert := fun k blk b =>
  ⟨roundDec_roundEnc k blk b, roundEnc_roundDec k blk b, finalDec_finalEnc k blk b, finalEnc_finalDec k blk b,
    decBlock_encBlock k blk b, encBlock_decBlock k blk b⟩

/-! ### The final stage (rules R127 to R129) -/

/-- The half swap, on the block's number. -/
theorem le64_swapHalves (b : Block) : le64 (swapHalves b) = low32 (le64 b) ++ high32 (le64 b) := by
  have hlow : low32 (le64 b) = lo32 b := low32_word64 b 0 _
  have hhigh : high32 (le64 b) = hi32 b := high32_word64 b 0 _
  rw [hlow, hhigh]
  rfl

theorem le64_finalDec (k : Key) (blk : Word) (b : Block) : le64 (finalDec k blk b) =
    low32 (ekey k blk ^^^ bkey blk ^^^ (le64 b - ekey k blk)) ++
      high32 (ekey k blk ^^^ bkey blk ^^^ (le64 b - ekey k blk)) := by
  rw [finalDec, le64_swapHalves, le64_bytes64]

theorem le64_finalEnc (k : Key) (blk : Word) (b : Block) :
    le64 (finalEnc k blk b) = (ekey k blk ^^^ bkey blk ^^^ le64 (swapHalves b)) + ekey k blk := by
  rw [finalEnc, le64_bytes64]

/-- Settles O37: the half swap read on numbers, and the order by definition. -/
theorem finalMixesWithBlockAndKeyWord : Obligations.FinalMixesWithBlockAndKeyWord := fun k blk b =>
  ⟨le64_finalDec k blk b, (le64_finalEnc k blk b).trans (by rw [le64_swapHalves]; rfl), rfl, rfl⟩

/-! ### The block key (rule R126) -/

@[simp] theorem zext64_toNat (v : Word) : (zext64 v).toNat = v.toNat := by
  rw [zext64, BitVec.toNat_setWidth, Nat.mod_eq_of_lt (by omega)]

theorem index32_toNat (blk : Word) : (index32 blk).toNat = blk.toNat * 8 % 2 ^ 32 := BitVec.toNat_mul ..

theorem indexTermNarrow_toNat (blk : Word) :
    (indexTermNarrow blk).toNat = blk.toNat * 8 % 2 ^ 32 * 2 ^ 10 % 2 ^ 32 := by
  rw [indexTermNarrow, zext64_toNat, BitVec.toNat_shiftLeft, Nat.shiftLeft_eq, index32_toNat]

theorem indexTermWide_toNat (blk : Word) : (indexTermWide blk).toNat = blk.toNat * 8 % 2 ^ 32 * 2 ^ 10 := by
  rw [indexTermWide, BitVec.toNat_shiftLeft, Nat.shiftLeft_eq, zext64_toNat, index32_toNat]
  omega

/-- The two readings of the index term differ from the first carry out of 32 bits on, at block 2^19 (decision D19). -/
theorem indexTermWide_eq_narrow {blk : Word} (h : blk.toNat < 2 ^ 19) : indexTermWide blk = indexTermNarrow blk := by
  apply BitVec.eq_of_toNat_eq
  rw [indexTermWide_toNat, indexTermNarrow_toNat]
  omega

theorem bkey_toNat (blk : Word) : (bkey blk).toNat =
    ((blk.toNat * 2 ^ 23 ||| blk.toNat * 8 % 2 ^ 32 * 2 ^ 10 % 2 ^ 32 ||| blk.toNat * 8 % 2 ^ 32 |||
      blk.toNat * 2 ^ 33 % 2 ^ 64) + 0xA1652347) % 2 ^ 64 := by
  have hlow : (zext64 blk <<< 23).toNat = blk.toNat * 2 ^ 23 := by
    rw [BitVec.toNat_shiftLeft, Nat.shiftLeft_eq, zext64_toNat]
    omega
  have hhigh : (zext64 blk <<< 33).toNat = blk.toNat * 2 ^ 33 % 2 ^ 64 := by
    rw [BitVec.toNat_shiftLeft, Nat.shiftLeft_eq, zext64_toNat]
  rw [bkey, bkeyOf, BitVec.toNat_add, BitVec.toNat_or, BitVec.toNat_or, BitVec.toNat_or, hlow, hhigh, indexTerm,
    indexTermNarrow_toNat, zext64_toNat, index32_toNat]
  rfl

/-- Below block 2^10 the four terms of the block key occupy different bits, so their OR is a sum. -/
theorem blockKeyTerms_or_eq_add {n : Nat} (h : n < 2 ^ 10) :
    (n * 2 ^ 23 ||| n * 8 * 2 ^ 10 ||| n * 8 ||| n * 2 ^ 33) = n * 0x200802008 := by
  have hindex : (n <<< 23 ||| n * 8 * 2 ^ 10) = n <<< 23 + n * 8 * 2 ^ 10 :=
    (Nat.shiftLeft_add_eq_or_of_lt (by omega) n).symm
  have hsplit : n <<< 23 + n * 8 * 2 ^ 10 = (n * 2 ^ 10 + n) <<< 13 := by
    rw [Nat.shiftLeft_eq, Nat.shiftLeft_eq]
    ring
  have hlow : ((n * 2 ^ 10 + n) <<< 13 ||| n * 8) = (n * 2 ^ 10 + n) <<< 13 + n * 8 :=
    (Nat.shiftLeft_add_eq_or_of_lt (by omega) _).symm
  have hhigh : (n <<< 33 ||| ((n * 2 ^ 10 + n) <<< 13 + n * 8)) = n <<< 33 + ((n * 2 ^ 10 + n) <<< 13 + n * 8) :=
    (Nat.shiftLeft_add_eq_or_of_lt (by rw [Nat.shiftLeft_eq]; omega) n).symm
  rw [← Nat.shiftLeft_eq n 23, ← Nat.shiftLeft_eq n 33, hindex, hsplit, hlow, Nat.or_comm, hhigh, Nat.shiftLeft_eq,
    Nat.shiftLeft_eq]
  ring

theorem bkey_eq_of_small {blk : Word} (h : blk.toNat < 2 ^ 10) :
    bkey blk = BitVec.ofNat 64 (blk.toNat * 0x200802008 + 0xA1652347) := by
  apply BitVec.eq_of_toNat_eq
  rw [bkey_toNat, BitVec.toNat_ofNat, Nat.mod_eq_of_lt (a := blk.toNat * 8) (by omega),
    Nat.mod_eq_of_lt (a := blk.toNat * 8 * 2 ^ 10) (by omega), Nat.mod_eq_of_lt (a := blk.toNat * 2 ^ 33) (by omega),
    blockKeyTerms_or_eq_add h]

/-- Settles O38: the formula term by term; the examples are evaluated. -/
theorem blockKeyValues : Obligations.BlockKeyValues := by
  refine ⟨bkey_toNat, fun _ => bkey_eq_of_small, fun blk h => ?_, by decide⟩
  rw [indexTermWide_eq_narrow h]
  rfl

/-! ### The start of the chain (rule R135) -/

theorem blkByte_eq (blk : Word) : blkByte blk = BitVec.ofNat 8 (blk.toNat % 256) := by
  apply BitVec.eq_of_toNat_eq
  simp [blkByte, blkByteLow, byteAt]

/-- Settles O39: the start depends on the index modulo 256. -/
theorem initialXorStateHasPeriod256 : Obligations.InitialXorStateHasPeriod256 := by
  have hlow (blk : Word) : xorStart blk = 0x45 ^^^ BitVec.ofNat 8 (blk.toNat % 256) := by rw [xorStart, blkByte_eq]
  refine ⟨hlow, fun blk => ?_, by decide⟩
  have hmod : (blk + 256).toNat % 256 = blk.toNat % 256 := by bv_omega
  rw [hlow, hlow, hmod]

/-! ### A byte array as its blocks -/

theorem block_eq_bytes (b : Block) : #v[b[0], b[1], b[2], b[3], b[4], b[5], b[6], b[7]] = b := by
  apply block_ext <;> rfl

theorem exists_eq_block_append {bs : List Byte} (h : 8 ≤ bs.length) :
    ∃ (b : Block) (rest : List Byte), bs = b.toList ++ rest :=
  ⟨⟨(bs.take 8).toArray, by simpa using h⟩, bs.drop 8, by simp⟩

/-- Induction over a byte array, block by block, down to a rest shorter than a block. -/
theorem blocks_induction {P : List Byte → Prop} (short : ∀ bs, bs.length < 8 → P bs)
    (block : ∀ (b : Block) (rest : List Byte), P rest → P (b.toList ++ rest)) (bs : List Byte) : P bs := by
  by_cases h : bs.length < 8
  · exact short bs h
  · obtain ⟨b, rest, hbs⟩ := exists_eq_block_append (Nat.not_lt.mp h)
    rw [hbs]
    exact block b rest (blocks_induction short block rest)
termination_by bs.length
decreasing_by simp [hbs]

theorem drop_block_append (b : Block) (rest : List Byte) (j : Nat) :
    (b.toList ++ rest).drop (8 * (j + 1)) = rest.drop (8 * j) := by
  have hlen : 8 * (j + 1) = b.toList.length + 8 * j := by rw [Vector.length_toList]; omega
  rw [hlen, List.drop_length_add_append]

/-- Two byte arrays of one length are equal when their blocks are, a last rest shorter than a block included. -/
theorem eq_of_blocks_eq {x y : List Byte} (hlen : x.length = y.length)
    (h : ∀ j, 8 * j < x.length → (x.drop (8 * j)).take 8 = (y.drop (8 * j)).take 8) : x = y := by
  refine List.ext_getElem hlen fun a hx hy => ?_
  have hblock := List.getElem_of_eq (h (a / 8) (by omega)) (i := a % 8) (by simp; omega)
  simpa [Nat.div_add_mod] using hblock

/-! ### The buffer functions block by block (rules R120, R134) -/

theorem mapBlocks_of_short (f : Word → Block → Block) (blk : Word) {bs : List Byte} (h : bs.length < 8) :
    mapBlocks f blk bs = bs := by
  unfold mapBlocks
  split
  · simp at h; omega
  · rfl

theorem mapBlocks_block_append (f : Word → Block → Block) (blk : Word) (b : Block) (rest : List Byte) :
    mapBlocks f blk (b.toList ++ rest) = (f blk b).toList ++ mapBlocks f (blk + 1) rest := by
  rw [← block_eq_bytes b]
  rfl

@[simp] theorem mapBlocks_length (f : Word → Block → Block) (blk : Word) (bs : List Byte) :
    (mapBlocks f blk bs).length = bs.length := by
  induction bs using blocks_induction generalizing blk with
  | short bs h => rw [mapBlocks_of_short f blk h]
  | block b rest ih => rw [mapBlocks_block_append]; simp [ih]

/-- A block function that undoes another undoes it on every byte array. -/
theorem mapBlocks_mapBlocks {f g : Word → Block → Block} (hinv : ∀ blk b, g blk (f blk b) = b) (blk : Word)
    (bs : List Byte) : mapBlocks g blk (mapBlocks f blk bs) = bs := by
  induction bs using blocks_induction generalizing blk with
  | short bs h => rw [mapBlocks_of_short f blk h, mapBlocks_of_short g blk h]
  | block b rest ih => rw [mapBlocks_block_append, mapBlocks_block_append, hinv, ih]

/-- Block `j` of the result is the transform of block `j`, under its own index. -/
theorem mapBlocks_block (f : Word → Block → Block) {blk : Word} {bs : List Byte} {j : Nat} {b : Block}
    (h : (bs.drop (8 * j)).take 8 = b.toList) :
    ((mapBlocks f blk bs).drop (8 * j)).take 8 = (f (blk + BitVec.ofNat 32 j) b).toList := by
  have hlen : 8 ≤ bs.length - 8 * j := by simpa using congrArg List.length h
  induction j generalizing blk bs with
  | zero =>
    obtain ⟨c, rest, rfl⟩ := exists_eq_block_append (bs := bs) (by omega)
    obtain rfl : c = b := Vector.toList_inj.mp (by simpa using h)
    simp [mapBlocks_block_append]
  | succ j ih =>
    obtain ⟨c, rest, rfl⟩ := exists_eq_block_append (bs := bs) (by omega)
    rw [drop_block_append] at h
    rw [mapBlocks_block_append, drop_block_append, ih h (by simp at hlen; omega), BitVec.add_assoc, Nat.add_comm j 1,
      BitVec.ofNat_add]
    rfl

theorem decBuf_encBuf (k : Key) (buf : List Byte) : decBuf k (encBuf k buf) = buf :=
  mapBlocks_mapBlocks (decBlock_encBlock k) 0 buf

theorem encBuf_decBuf (k : Key) (buf : List Byte) : encBuf k (decBuf k buf) = buf :=
  mapBlocks_mapBlocks (encBlock_decBlock k) 0 buf

/-- Settles O36: the block functions undo each other at every index. -/
theorem bufferRoundTrip : Obligations.BufferRoundTrip :=
  ⟨fun k blk b => ⟨decBlock_encBlock k blk b, encBlock_decBlock k blk b⟩,
    fun k buf _ => ⟨mapBlocks_length .., decBuf_encBuf k buf, encBuf_decBuf k buf⟩,
    fun s buf _ => decBuf_encBuf (keyExpand s) buf⟩

theorem mapBlocks_zero_block (f : Word → Block → Block) {bs : List Byte} {j : Nat} {b : Block}
    (h : (bs.drop (8 * j)).take 8 = b.toList) :
    ((mapBlocks f 0 bs).drop (8 * j)).take 8 = (f (BitVec.ofNat 32 j) b).toList := by
  rw [mapBlocks_block f h]
  exact congrArg (fun i => (f i b).toList) (BitVec.zero_add _)

/-- Settles O42: the loop's index counts the blocks from 0. -/
theorem bufferBlocksInIndexOrder : Obligations.BufferBlocksInIndexOrder := fun _ _ _ =>
  ⟨fun _ _ _ h => ⟨mapBlocks_zero_block _ h, mapBlocks_zero_block _ h⟩, by rintro rfl; exact ⟨rfl, rfl⟩⟩

theorem exists_block_at {bs : List Byte} {j : Nat} (h : 8 * j < bs.length) (h8 : bs.length % 8 = 0) :
    ∃ b : Block, (bs.drop (8 * j)).take 8 = b.toList := by
  obtain ⟨b, rest, hb⟩ := exists_eq_block_append (bs := bs.drop (8 * j)) (by rw [List.length_drop]; omega)
  exact ⟨b, by simp [hb]⟩

/-- A block of the result depends on that block alone: no chaining between blocks (rule R133). -/
theorem mapBlocks_block_congr (f : Word → Block → Block) {x y : List Byte} {j : Nat} (hlen : x.length = y.length)
    (h8 : x.length % 8 = 0) (h : (x.drop (8 * j)).take 8 = (y.drop (8 * j)).take 8) :
    ((mapBlocks f 0 x).drop (8 * j)).take 8 = ((mapBlocks f 0 y).drop (8 * j)).take 8 := by
  by_cases hj : 8 * j < x.length
  · obtain ⟨b, hb⟩ := exists_block_at hj h8
    rw [mapBlocks_zero_block f hb, mapBlocks_zero_block f (h ▸ hb)]
  · rw [List.drop_of_length_le (by rw [mapBlocks_length]; omega),
      List.drop_of_length_le (by rw [mapBlocks_length]; omega)]

/-! ### What a byte of a block depends on (rule R133) -/

/-- To agree in the low `n` bytes is to agree modulo 2^(8n). -/
theorem setWidth_eq_iff_byteAt {v w : DWord} {n : Nat} :
    v.setWidth (8 * n) = w.setWidth (8 * n) ↔ ∀ i, i < n → byteAt v i = byteAt w i := by
  constructor
  · intro h i hi
    apply BitVec.eq_of_getLsbD_eq
    intro r hr
    have hbit : (v.setWidth (8 * n)).getLsbD (8 * i + r) = (w.setWidth (8 * n)).getLsbD (8 * i + r) := by rw [h]
    have hlt : 8 * i + r < 8 * n := by omega
    simp only [BitVec.getLsbD_setWidth, hlt] at hbit
    simpa only [getLsbD_byteAt, hr] using hbit
  · intro h
    apply BitVec.eq_of_getLsbD_eq
    intro i hi
    have hbit : (byteAt v (i / 8)).getLsbD (i % 8) = (byteAt w (i / 8)).getLsbD (i % 8) := by rw [h _ (by omega)]
    have hlt : i % 8 < 8 := Nat.mod_lt _ (by decide)
    simp only [getLsbD_byteAt, hlt, Nat.div_add_mod] at hbit
    simpa only [BitVec.getLsbD_setWidth, hi] using hbit

/-- Carries run upward only: the low bytes of the mixed number depend on the same low bytes. -/
theorem byteAt_xor_add_congr {v w : DWord} (m e : DWord) {n : Nat} (hn : n ≤ 8)
    (h : ∀ i, i < n → byteAt v i = byteAt w i) :
    ∀ i, i < n → byteAt ((m ^^^ v) + e) i = byteAt ((m ^^^ w) + e) i := by
  have hlow := setWidth_eq_iff_byteAt.mpr h
  rw [← setWidth_eq_iff_byteAt, BitVec.setWidth_add _ _ (by omega), BitVec.setWidth_add _ _ (by omega),
    BitVec.setWidth_xor, BitVec.setWidth_xor, hlow]

theorem byteAt_le64 (b : Block) {i : Nat} (hi : i < 8) : byteAt (le64 b) i = b[i] := by
  rw [← bytes64_getElem _ _ hi, bytes64_le64]

section
variable (k : Key) (blk : Word) {b d : Block} {o : Nat} (ho : o < 8)

theorem finalEnc_congr_upTo (h : ∀ (i : Nat) (_ : i ≤ o), (swapHalves b)[i] = (swapHalves d)[i]) {i : Nat}
    (hi : i ≤ o) :
    (finalEnc k blk b)[i] = (finalEnc k blk d)[i] := by
  rw [finalEnc, finalEnc, bytes64_getElem _ _ (by omega), bytes64_getElem _ _ (by omega)]
  refine byteAt_xor_add_congr _ _ (n := o + 1) ho (fun x hx => ?_) i (by omega)
  rw [byteAt_le64 _ (by omega), byteAt_le64 _ (by omega), h x (by omega)]

theorem roundEnc_congr_upTo (h : ∀ (i : Nat) (_ : i ≤ o), b[i] = d[i]) :
    (roundEnc k blk b)[o] = (roundEnc k blk d)[o] := by
  induction o with
  | zero => rw [roundEnc_zero, roundEnc_zero, h 0 le_rfl]
  | succ o ih => rw [roundEnc_succ, roundEnc_succ, ih (by omega) fun i hi => h i (by omega), h (o + 1) le_rfl]

theorem encBlock_congr_upTo (h : ∀ (i : Nat) (_ : i ≤ o), (swapHalves b)[i] = (swapHalves d)[i]) :
    (encBlock k blk b)[o] = (encBlock k blk d)[o] :=
  roundEnc_congr_upTo k blk ho fun _ hi => finalEnc_congr_upTo k blk ho h hi

end

/-- Settles O41: a block sees its own bytes only; inside it, carries and the chain of Round run upward. -/
theorem blocksAreIndependent : Obligations.BlocksAreIndependent := by
  refine ⟨fun k x y j hlen h8 h => ⟨mapBlocks_block_congr _ hlen h8 h, mapBlocks_block_congr _ hlen h8 h⟩,
    fun k blk b d o h => encBlock_congr_upTo k blk o.isLt fun i hi => h ⟨i, by omega⟩ hi,
    fun k blk b d h4 h5 h6 h7 o => encBlock_congr_upTo k blk (by omega) fun i hi => ?_⟩
  obtain rfl | rfl | rfl | rfl : i = 0 ∨ i = 1 ∨ i = 2 ∨ i = 3 := by omega
  exacts [h4, h5, h6, h7]

/-! ### ENC and DEC (rules R136, R137) -/

theorem cipherStep_eq (f : Key → Word → Block → Block) (s : State) :
    cipherStep f s = { s with buf := (cipherStep f s).buf, blk := s.blk + 1 } := by
  rw [cipherStep, writeBlock, writeBytes8, setBufBytes_eq]
  rfl

theorem cipherSteps_eq (f : Key → Word → Block → Block) (n : Nat) (s : State) :
    cipherSteps f n s = { s with buf := (cipherSteps f n s).buf, blk := (cipherSteps f n s).blk } := by
  induction n generalizing s with
  | zero => rfl
  | succ n ih => rw [cipherSteps, ih, cipherStep_eq]

theorem payload_block (s : State) {n j : Nat} (h : 8 * j + 8 ≤ n) :
    ((payload s n).drop (8 * j)).take 8 = (readBytes8 s (8 * j)).toList := by
  refine List.ext_getElem (by simp [payload]; omega) fun i _ _ => ?_
  simp [payload, readBytes8_getElem]

/-- A pass replaces the payload by the buffer function of it. -/
theorem payload_cipherPass (f : Key → Word → Block → Block) (s : State) (h8 : s.len.toNat % 8 = 0) :
    payload (cipherPass f s) s.len.toNat = mapBlocks (f s.key) 0 (payload s s.len.toNat) := by
  refine eq_of_blocks_eq (by simp [payload]) fun j hj => ?_
  have hlen : 8 * j + 8 ≤ s.len.toNat := by simp [payload] at hj; omega
  rw [payload_block _ hlen, readBytes8_cipherPass f s (by omega), mapBlocks_zero_block _ (payload_block s hlen)]

theorem passDone_cipherPass (f : Key → Word → Block → Block) {s : State} (h8 : s.len.toNat % 8 = 0) :
    PassDone (fun k => mapBlocks (f k) 0) s (cipherPass f s) := by
  refine ⟨payload_cipherPass f s h8, fun a => cipherPass_bufByte_above f s,
    (cipherPass f s).buf, (cipherPass f s).seed, (cipherPass f s).key, (cipherPass f s).draws, ?_⟩
  have hblk := cipherSteps_blk_of_zero f (s.len.toNat / 8) (setBlk 0 s) rfl
  rw [cipherPass, cipherSteps_eq, hblk]
  rfl

/-- Everything a cipher command does, check by check (rule R181). -/
theorem exec_of_cipherCommand {c : Instr} {f : Key → Word → Block → Block}
    (hc : ∀ s, exec c s = .next (cipherCommand f s)) :
    (∀ s : State, s.err = true → exec c s = .next s) ∧
    (∀ s : State, s.err = false → s.keyv = false → exec c s = .next (raise .nokey s)) ∧
    (∀ s : State, s.err = false → s.keyv = true → s.len.toNat % 8 ≠ 0 ∨ s.bufcap.bytes < s.len.toNat →
      exec c s = .next (raise .malformed s)) ∧
    (∀ s : State, CipherReady s → ∃ t, exec c s = .next t ∧ PassDone (fun k => mapBlocks (f k) 0) s t) := by
  refine ⟨fun s he => ?_, fun s he hk => ?_, fun s he hk hm => ?_, fun s hr => ⟨_, hc s, ?_⟩⟩
  · rw [hc, cipherCommand, unlessError_of_err _ he]
  · rw [hc, cipherCommand, unlessError_of_ok _ he, if_neg (by simp [hk])]
  · rw [hc, cipherCommand, unlessError_of_ok _ he, if_pos hk, if_pos (malformedLength_eq_true.mpr hm)]
  · have ⟨_, _, h8, _⟩ := hr
    rw [cipherCommand_of_ready f hr]
    exact passDone_cipherPass f h8

/-- Settles O43: the cipher command with the block function of encryption. -/
theorem encEncryptsTheBuffer : Obligations.EncEncryptsTheBuffer := exec_of_cipherCommand (f := encBlock) fun _ => rfl

/-- Settles O44: the cipher command with the block function of decryption. -/
theorem decDecryptsTheBuffer : Obligations.DecDecryptsTheBuffer := exec_of_cipherCommand (f := decBlock) fun _ => rfl

end Sys2Proof.Machine

/-! PROOF. The statements on the control commands (`43_control_commands.md`): NOP leaves the state as it is, and CLR as
its three state operations, the discard (rule R28), `BLK` from 0 (rule R26) and the acknowledgement (rule R188). -/

namespace Sys2Proof.Machine

/-- NOP has no check on `ERR` (rule R150). -/
@[simp] theorem exec_nop (s : State) : exec .nop s = .next s := rfl

/-- CLR has no check on `ERR` (rules R151, R185). -/
theorem exec_clr (s : State) : exec .clr s = .next (ackFault (setBlk 0 (discard s))) := rfl

/-- Settles O47: NOP answers the state it is given, whatever `ERR` is. -/
theorem nopChangesNothing : Obligations.NopChangesNothing := exec_nop

/-- Settles O48: `SEED` and `KEY` are what the discard leaves in them. -/
theorem clrDiscardsAndAcknowledges : Obligations.ClrDiscardsAndAcknowledges := by
  intro s
  refine ⟨(discard s).seed, (discard s).key, (discard s).draws, ?_⟩
  rw [exec_clr, ackFault, setBlk, discard]

end Sys2Proof.Machine

/-! PROOF. The statements on the host's container and script paths (`44_container_host.md`): the branch of a record
that is not tagged encrypted (rule R164), and the script cipher, whose two directions have the same seed prefix
(rules R168, R169). -/

namespace Sys2Proof.Machine

/-! ### The branch of the decrypt path -/

theorem isEncrypted_eq_false_iff {h : ContainerHeader} : isEncrypted h = false ↔ h.tag ≠ encryptedTag :=
  beq_eq_false_iff_ne

theorem encryptedRecord_eq_false {r : List Byte} (h24 : 24 ≤ r.length)
    (ht : (parseHeader (headBytes 32 r)).tag ≠ encryptedTag) : encryptedRecord r = .ok false := by
  rw [encryptedRecord, if_neg (Nat.not_lt.mpr h24), isEncrypted_eq_false_iff.mpr ht]

theorem containerDecrypt_of_unencrypted (bodyOff : Nat) {r : List Byte} (h : encryptedRecord r = .ok false) :
    containerDecrypt bodyOff r = .ok r := by
  rw [containerDecrypt, h]

theorem containerDecryptInputs_of_unencrypted (bodyOff : Nat) {r : List Byte} (h : encryptedRecord r = .ok false) :
    containerDecryptInputs bodyOff r = .ok [] := by
  rw [containerDecryptInputs, h]

/-- Settles O58: the tag test answers "not encrypted", and both functions of the path branch on it alone. -/
theorem unencryptedContainerIsLeftAlone : Obligations.UnencryptedContainerIsLeftAlone := by
  intro bodyOff r h24 ht
  have hr := encryptedRecord_eq_false h24 ht
  exact ⟨containerDecrypt_of_unencrypted bodyOff hr, containerDecryptInputs_of_unencrypted bodyOff hr⟩

/-! ### The script paths -/

/-- The head of a record is a function of its first bytes. -/
theorem headBytes_congr {n : Nat} {x y : List Byte} (h : x.take n = y.take n) : headBytes n x = headBytes n y := by
  refine Vector.ext fun i hi => ?_
  have hi' : (x.take n).getD i 0 = (y.take n).getD i 0 := by rw [h]
  simpa [headBytes, List.getD_eq_getElem?_getD, List.getElem?_take_of_lt hi] using hi'

/-- The seed prefix stays, and the rest goes through the cipher under the key of that prefix. -/
theorem scriptCipher_append (f : Key → List Byte → List Byte) {pre rest : List Byte} (hpre : pre.length = 8)
    (hm : rest.length % 8 = 0) :
    scriptCipher f (pre ++ rest) = .ok (pre ++ f (keyExpand (seedLiteral (headBytes 8 pre))) rest) := by
  have hok : ¬((pre ++ rest).length < 8 ∨ ((pre ++ rest).length - 8) % 8 ≠ 0) := by
    rw [List.length_append]; omega
  have hhead : headBytes 8 (pre ++ rest) = headBytes 8 pre :=
    headBytes_congr (by rw [List.take_left' hpre, List.take_of_length_le hpre.le])
  rw [scriptCipher, if_neg hok, List.take_left' hpre, List.drop_left' hpre, hhead]

/-- A cipher that keeps lengths, then its inverse: the prefix kept gives both directions the same seed. -/
theorem scriptCipher_roundTrip {f g : Key → List Byte → List Byte} (hlen : ∀ k bs, (f k bs).length = bs.length)
    (hinv : ∀ k bs, g k (f k bs) = bs) {pre rest : List Byte} (hpre : pre.length = 8) (hm : rest.length % 8 = 0) :
    ∃ c, scriptCipher f (pre ++ rest) = .ok c ∧ c.length = (pre ++ rest).length ∧ c.take 8 = pre ∧
      scriptCipher g c = .ok (pre ++ rest) := by
  refine ⟨_, scriptCipher_append f hpre hm, ?_, List.take_left' hpre, ?_⟩
  · rw [List.length_append, hlen, List.length_append]
  · rw [scriptCipher_append g hpre (by rwa [hlen]), hinv]

/-- Settles O59: encryption of the rest keeps its length, and decryption under the same key undoes it. -/
theorem scriptRoundTrip : Obligations.ScriptRoundTrip := by
  intro p h8 hm
  have h := scriptCipher_roundTrip (fun _ _ => mapBlocks_length ..) decBuf_encBuf
    (List.length_take_of_le h8) (List.length_drop ▸ hm)
  rwa [List.take_append_drop] at h

end Sys2Proof.Machine

/-! PROOF. The statements on the exceptions (`60_exceptions.md`): every step answers a next state (rule R189), the checks
of a command write in their order (rule R181), a fault that records its code alone (rule R186), and the error register,
which blocks every command but CLR and on which no access of the window but a read of `STATUS` depends (rule R185). -/

namespace Sys2Proof.Machine

/-! ### Every step answers (rule R189) -/

theorem exec_answers (c : Instr) (s : State) : ∃ t, exec c s = .next t := by
  cases c <;> exact ⟨_, rfl⟩

/-- Settles O9: a step is idle, an access, a command or an illegal word, and each of them answers. -/
theorem everyStepAnswersANextState : Obligations.EveryStepAnswersANextState := by
  refine ⟨exec_answers, fun s => ?_⟩
  obtain ⟨-, hs⟩ | ⟨_, _, -, -, hs⟩ | ⟨_, _, _, c, -, -, -, hs⟩ | ⟨_, _, _, _, -, -, -, hs⟩ := step_cases s
  · exact ⟨_, hs⟩
  · exact ⟨_, hs⟩
  · rw [hs]; exact exec_answers c _
  · exact ⟨_, hs⟩

/-! ### Fault entry (rule R186) -/

theorem illegalCommand_of_ok {s : State} (he : s.err = false) : illegalCommand s = raise .illcmd s :=
  unlessError_of_ok _ he

theorem illegalCommand_of_err {s : State} (he : s.err = true) : illegalCommand s = s := unlessError_of_err _ he

/-- Settles O49: of the effects a command can have, fault entry alone sets `ERR`. -/
theorem faultEntryRecordsOnlyTheCode : Obligations.FaultEntryRecordsOnlyTheCode := by
  refine ⟨fun c s t he ht hterr => ?_, fun s => illegalCommand_of_ok⟩
  cases exec_effect ht with
  | faulted f => exact ⟨f, rfl⟩
  | idle | ignored | seeded | keyed | ciphered | cleared => simp [he] at hterr

/-! ### The checks of a command write (rule R181) -/

/-- While `ERR` = 1 every command but CLR leaves the state as it is (rule R185). -/
theorem exec_of_err {c : Instr} {s : State} (hc : c ≠ .clr) (he : s.err = true) : exec c s = .next s := by
  obtain ⟨t, ht⟩ := exec_answers c s
  cases exec_effect ht with
  | idle | ignored => exact ht
  | faulted _ hok | seeded _ _ hok | keyed _ hok => simp [he] at hok
  | ciphered _ _ hr =>
    obtain ⟨hok, -⟩ := hr
    simp [he] at hok
  | cleared hc' => exact absurd hc' hc

/-- When a command passes its own checks, `ERR` = 0 given (rules R91, R93, R112, R136, R137, R150, R151). -/
def ChecksPass (s : State) : Instr → Prop
  | .nop | .seedx | .seedld | .clr => True
  | .kexp => s.seedv = true
  | .enc | .dec => CipherReady s

/-- A command whose checks pass raises no fault. -/
theorem exec_of_checksPass {c : Instr} {s : State} (he : s.err = false) (h : ChecksPass s c) :
    ∃ t, exec c s = .next t ∧ t.err = false := by
  cases c with
  | nop => exact ⟨s, rfl, he⟩
  | seedx => exact ⟨_, exec_seedx s, by simp [he]⟩
  | seedld => exact ⟨_, exec_seedld s, by simp [he]⟩
  | kexp =>
    have hv : s.seedv = true := h
    exact ⟨_, exec_kexp s, by simp [he, hv]⟩
  | enc => exact ⟨_, exec_enc_of_ready h, by simp [he]⟩
  | dec => exact ⟨_, exec_dec_of_ready h, by simp [he]⟩
  | clr => exact ⟨_, exec_clr s, rfl⟩

section
variable {s : State} {w : Word} {rest : List Input}

theorem step_of_commandWord {c : Instr} (hp : s.pending = .write 0 (wordBytes w) :: rest) (hw : w = encode c) :
    step s = exec c (acceptCommand rest s) := by
  subst hw
  exact step_of_command hp (decodeBytes_encodeBytes c)

theorem step_of_illegalWord (hp : s.pending = .write 0 (wordBytes w) :: rest) (hw : 6 < w.toNat) :
    step s = .next (illegalCommand (acceptCommand rest s)) := by
  obtain ⟨r, hr⟩ := (decodeIsIllegalExactlyAboveSix w).2.mpr hw
  exact step_of_illegal hp (commandBytes_wordBytes w) ((decodeBytes_wordBytes w).trans hr)

/-- While `ERR` = 1 a word other than CLR's, legal or illegal, has its bus write answered and does nothing else. -/
theorem step_of_blockedWord (hp : s.pending = .write 0 (wordBytes w) :: rest) (hw : w ≠ 6) (he : s.err = true) :
    step s = .next (acceptCommand rest s) := by
  by_cases hlegal : w.toNat ≤ 6
  · obtain ⟨c, hc⟩ := exists_eq_encode_iff.mpr hlegal
    have hclr : c ≠ .clr := by rintro rfl; exact hw hc
    rw [step_of_commandWord hp hc, exec_of_err (s := acceptCommand rest s) hclr he]
  · rw [step_of_illegalWord hp (by omega), illegalCommand_of_err (s := acceptCommand rest s) he]

/-- With `ERR` = 0 the word of a command whose checks pass runs that command, without a fault. -/
theorem step_of_passingWord {c : Instr} (hp : s.pending = .write 0 (wordBytes w) :: rest) (hw : w = encode c)
    (he : s.err = false) (h : ChecksPass (acceptCommand rest s) c) :
    ∃ i t, decode w = .ok i ∧ step s = exec i (acceptCommand rest s) ∧ exec i (acceptCommand rest s) = .next t ∧
      t.err = false := by
  obtain ⟨t, ht⟩ := exec_of_checksPass (s := acceptCommand rest s) he h
  exact ⟨c, t, decode_eq_ok_iff.mpr hw, step_of_commandWord hp hw, ht⟩

end

/-- The words 4 and 5 are cipher commands, whose checks are those of `CipherReady` (rules R72, R136, R137). -/
theorem exists_cipher_of_word {w : Word} (hw : w = 4 ∨ w = 5) :
    ∃ c f, w = encode c ∧ (∀ s, exec c s = .next (cipherCommand f s)) ∧ ∀ s, CipherReady s → ChecksPass s c := by
  obtain hw | hw := hw
  · exact ⟨.enc, encBlock, hw, fun _ => rfl, fun _ => id⟩
  · exact ⟨.dec, decBlock, hw, fun _ => rfl, fun _ => id⟩

/-- Settles O7: the word fixes the command, and each clause is the check that decides for it. -/
theorem commandWriteFollowsTheCheckOrder : Obligations.CommandWriteFollowsTheCheckOrder := by
  intro s w rest hp a cipher badLength
  have hrun (c : Instr) (hw : w = encode c) : step s = exec c a := step_of_commandWord hp hw
  obtain ⟨-, hnoseed, -⟩ := kexpExpandsTheSeed
  refine ⟨hrun .clr, step_of_blockedWord hp, fun he hw => ?_, fun _ => hrun .nop, fun he hw hv => ?_,
    fun he hc hk => ?_, fun he hc hk hm => ?_, fun he h => ?_⟩
  · rw [step_of_illegalWord hp hw, illegalCommand_of_ok (s := acceptCommand rest s) he]
    rfl
  · rw [hrun .kexp hw]
    exact hnoseed a he hv
  · obtain ⟨c, f, hw, hf, -⟩ := exists_cipher_of_word hc
    obtain ⟨-, hnokey, -⟩ := exec_of_cipherCommand hf
    rw [hrun c hw]
    exact hnokey a he hk
  · obtain ⟨c, f, hw, hf, -⟩ := exists_cipher_of_word hc
    obtain ⟨-, -, hmalformed, -⟩ := exec_of_cipherCommand hf
    rw [hrun c hw]
    exact hmalformed a he hk hm
  · obtain hw | hw | ⟨hw, hv⟩ | ⟨hc, hk, hlen⟩ := h
    · exact step_of_passingWord (c := .seedx) hp hw he trivial
    · exact step_of_passingWord (c := .seedld) hp hw he trivial
    · exact step_of_passingWord (c := .kexp) hp hw he hv
    · obtain ⟨c, -, hw, -, hpass⟩ := exists_cipher_of_word hc
      have hready : CipherReady a := ⟨he, hk, by simpa [badLength] using hlen⟩
      exact step_of_passingWord hp hw he (hpass a hready)

/-! ### The window does not see the error register (rule R185) -/

/-- `STATUS` is reached at its own offset only (rules R33, R36). -/
theorem off_eq_of_access_status {cap off n i : Nat} (ha : access cap off n = .ok (.status, i)) : off = 0x004 := by
  have h := (windowTakesExactlyTheAllowedAccesses ..).mp ha
  simp only [reduceCtorEq, false_and, and_false, or_false, false_or, true_and] at h
  obtain ⟨-, -, hoff⟩ := h
  exact hoff

/-- The state with another error register. -/
def State.withError (s : State) (e : Bool) (c : Option CmdFault) : State := { s with err := e, errcode := c }

section
variable (s : State) (e : Bool) (c : Option CmdFault)

theorem State.setHdrBytes_withError (i : Nat) (bs : List Byte) :
    (s.withError e c).setHdrBytes i bs = (s.setHdrBytes i bs).withError e c := by
  induction bs generalizing s i with
  | nil => rfl
  | cons v rest ih => exact ih (s.setHdrByte i v) (i + 1)

theorem State.setBufBytes_withError (a : Nat) (bs : List Byte) :
    (s.withError e c).setBufBytes a bs = (s.setBufBytes a bs).withError e c := by
  induction bs generalizing s a with
  | nil => rfl
  | cons v rest ih => exact ih (s.setBufByte a v) (a + 1)

theorem writeLoc_withError (l : Loc) (i : Nat) (bs : List Byte) :
    writeLoc l i bs (s.withError e c) = (writeLoc l i bs s).map (·.withError e c) := by
  cases l with
  | len => simp only [writeLoc, Option.map_map]; rfl
  | hdr => exact congrArg some (s.setHdrBytes_withError e c i bs)
  | buf => exact congrArg some (s.setBufBytes_withError e c i bs)
  | cmd | status | blk | seedLo | seedHi | key => rfl

theorem hostWrite_withError (off : Nat) (bs : List Byte) :
    hostWrite off bs (s.withError e c) = (hostWrite off bs s).withError e c := by
  cases ha : access s.bufcap.bytes off bs.length with
  | error why =>
    rw [hostWrite_of_refused ha, hostWrite_of_refused (s := s.withError e c) ha]
    rfl
  | ok p =>
    obtain ⟨l, i⟩ := p
    have hloc := writeLoc_withError s e c l i bs
    cases hw : writeLoc l i bs s with
    | none =>
      rw [hw] at hloc
      rw [hostWrite_of_readOnly ha hw, hostWrite_of_readOnly (s := s.withError e c) ha hloc]
      rfl
    | some t =>
      rw [hw] at hloc
      rw [hostWrite_of_writable ha hw, hostWrite_of_writable (s := s.withError e c) ha hloc]
      rfl

/-- `STATUS` alone shows the error register (rule R35). -/
theorem locBytes_withError {l : Loc} (hl : l ≠ .status) (i n : Nat) :
    locBytes (s.withError e c) l i n = locBytes s l i n := by
  cases l with
  | status => exact absurd rfl hl
  | cmd | len | blk | seedLo | seedHi | hdr | key | buf => rfl

theorem readsUnspecified_withError (l : Loc) : readsUnspecified (s.withError e c) l = readsUnspecified s l := by
  cases l <;> rfl

theorem hostRead_withError {off : Nat} (hoff : off ≠ 0x004) (n : Nat) :
    hostRead off n (s.withError e c) = (hostRead off n s).withError e c := by
  cases ha : access s.bufcap.bytes off n with
  | error why =>
    rw [hostRead_of_refused ha, hostRead_of_refused (s := s.withError e c) ha]
    rfl
  | ok p =>
    obtain ⟨l, i⟩ := p
    have hl : l ≠ .status := by rintro rfl; exact hoff (off_eq_of_access_status ha)
    rw [hostRead_of_access ha, hostRead_of_access (s := s.withError e c) ha, readsUnspecified_withError,
      locBytes_withError s e c hl, apply_ite (State.withError · e c)]
    rfl

end

/-- An input that no error register has a part in: the step in a state with `ERR` = 1 is the step in the same state with
`ERR` = 0, but for the register itself. -/
theorem step_ignores_error {s : State} {i : Input} {rest : List Input}
    (hi : ∀ u e c, applyInput i (State.withError u e c) = (applyInput i u).withError e c)
    (hp : s.pending = i :: rest) (hc : commandBytes i = none) (he : s.err = true) :
    ∃ t, step (s.withError false none) = .next t ∧ step s = .next (t.withError true s.errcode) := by
  have hs : (s.withError false none).withError true s.errcode = s := by rw [← he]; rfl
  refine ⟨_, step_of_input (s := s.withError false none) hp hc, ?_⟩
  rw [← hi, step_of_input hp hc]
  exact congrArg (fun u => Host.Outcome.next (applyInput i (takeInput rest u))) hs.symm

/-- Settles O8: a blocked word does nothing, and the window's accesses commute with a change of the error register. -/
theorem errorBlocksAllButClrAndTheWindow : Obligations.ErrorBlocksAllButClrAndTheWindow := by
  refine fun s he => ⟨fun w rest hp hw => step_of_blockedWord hp hw he, fun off bs rest hp hc => ?_,
    fun off n rest hp hoff => ?_⟩
  · exact step_ignores_error (i := .write off bs) (fun u e c => hostWrite_withError u e c off bs) hp hc he
  · exact step_ignores_error (i := .read off n) (fun u e c => hostRead_withError u e c hoff n) hp rfl he

end Sys2Proof.Machine

/-! PROOF. The statements on reset and hazards (`70_reset_and_hazards.md`): a core with nothing pending does nothing
(rule R211), and the commands follow the table of phases (rule R213). -/

namespace Sys2Proof.Machine

/-- Settles O6: the step of a state with no input pending is the idle one. -/
theorem nothingPendingNothingChanges : Obligations.NothingPendingNothingChanges := fun _ => step_of_idle

/-! ### The phase after each operation (rule R213) -/

theorem phase_congr {s t : State} (hs : t.seedv = s.seedv) (hk : t.keyv = s.keyv) : phase t = phase s := by
  rw [phase, phase, hs, hk]

/-- The pair (0,1) is the unreachable one. -/
theorem phase_ne_unreachable_iff {s : State} : phase s ≠ .unreachable ↔ (s.keyv = true → s.seedv = true) := by
  cases hs : s.seedv <;> cases hk : s.keyv <;> simp [phase, hs, hk]

section
variable (s : State)

@[simp] theorem phase_takeInput (rest : List Input) : phase (takeInput rest s) = phase s := rfl
@[simp] theorem phase_reply (r : Reply) : phase (reply r s) = phase s := rfl
@[simp] theorem phase_acceptCommand (rest : List Input) : phase (acceptCommand rest s) = phase s := rfl
@[simp] theorem phase_drawn : phase (drawn s) = phase s := rfl
@[simp] theorem phase_setLen (v : Word) : phase (setLen v s) = phase s := rfl
@[simp] theorem phase_raise (f : CmdFault) : phase (raise f s) = phase s := rfl
@[simp] theorem phase_loadSeed (v : DWord) : phase (loadSeed v s) = .seeded := rfl
@[simp] theorem phase_cipherPass (f : Key → Word → Block → Block) : phase (cipherPass f s) = .idle := rfl
@[simp] theorem phase_clear (v : Word) : phase (ackFault (setBlk v (discard s))) = .idle := rfl
@[simp] theorem phase_applyReset : phase (applyReset s) = .idle := rfl

theorem phase_loadKey {s : State} (k : Key) (hv : s.seedv = true) : phase (loadKey k s) = .keyed := by
  simp [phase, hv]

@[simp] theorem phase_setHdrBytes (i : Nat) (bs : List Byte) : phase (s.setHdrBytes i bs) = phase s :=
  phase_congr (by simp) (by simp)

@[simp] theorem phase_setBufBytes (a : Nat) (bs : List Byte) : phase (s.setBufBytes a bs) = phase s :=
  phase_congr (by simp) (by simp)

theorem phase_writeLoc {l : Loc} {i : Nat} {bs : List Byte} {s t : State} (h : writeLoc l i bs s = some t) :
    phase t = phase s := by
  obtain rfl | ⟨v, rfl⟩ | rfl | ⟨-, rfl⟩ := writeLoc_cases h <;> simp

@[simp] theorem phase_hostWrite (off : Nat) (bs : List Byte) : phase (hostWrite off bs s) = phase s := by
  obtain ⟨why, h⟩ | ⟨l, i, t, -, hw, h⟩ := hostWrite_cases off bs s
  · rw [h, phase_reply]
  · rw [h, phase_reply, phase_writeLoc hw]

@[simp] theorem phase_hostRead (off n : Nat) : phase (hostRead off n s) = phase s := by
  obtain ⟨_, -, h⟩ | ⟨_, _, -, -, h⟩ | ⟨_, _, -, -, h⟩ := hostRead_cases off n s <;> simp [h]

@[simp] theorem phase_illegalCommand : phase (illegalCommand s) = phase s := by
  obtain h | ⟨-, h⟩ := illegalCommand_cases s <;> simp [h]

end

/-! ### The table's cells by group of commands and phases -/

theorem phaseTable_kexp_of_ne_idle {p : Phase} (hp : p ≠ .idle) (m : Bool) : phaseTable p .kexp m = (.keyed, none) := by
  cases p with
  | idle => exact absurd rfl hp
  | seeded | keyed | unreachable => rfl

section
variable {c : Instr} (hc : c = .enc ∨ c = .dec) (m : Bool)
include hc

theorem phaseTable_cipher_of_ne_keyed {p : Phase} (hp : p ≠ .keyed) : phaseTable p c m = (p, some .nokey) := by
  cases p with
  | keyed => exact absurd rfl hp
  | idle | seeded | unreachable => obtain rfl | rfl := hc <;> rfl

theorem phaseTable_cipher_keyed :
    phaseTable .keyed c m = if m then (.keyed, some .malformed) else (.idle, none) := by
  obtain rfl | rfl := hc <;> rfl

end

/-! ### Each command follows the table -/

/-- The state stands where a cell of the table says: in its phase, with its fault recorded or with none. -/
def InCell (t : State) (cell : Phase × Option CmdFault) : Prop :=
  phase t = cell.1 ∧ t.errcode = cell.2 ∧ t.err = t.errcode.isSome

theorem inCell_raise (f : CmdFault) {s : State} {p : Phase} (hp : phase s = p) : InCell (raise f s) (p, some f) :=
  ⟨hp, rfl, rfl⟩

theorem inCell_clear (s : State) : InCell (ackFault (setBlk 0 (discard s))) (.idle, none) := ⟨rfl, rfl, rfl⟩

theorem inCell_of_no_fault {t : State} {p : Phase} (hp : phase t = p) (he : t.err = false) (hn : t.errcode = none) :
    InCell t (p, none) :=
  ⟨hp, hn, by rw [he, hn]; rfl⟩

section
variable {s : State} (he : s.err = false) (hn : s.errcode = none)
include he hn

theorem inCell_loadSeed (v : DWord) : InCell (unlessError s (loadSeed v s)) (.seeded, none) := by
  rw [unlessError_of_ok _ he]
  exact inCell_of_no_fault (phase_loadSeed s v) he hn

theorem inCell_loadKey (k : Key) (hv : s.seedv = true) : InCell (loadKey k s) (.keyed, none) :=
  inCell_of_no_fault (phase_loadKey k hv) he hn

/-- KEXP: a valid seed decides (rule R184). -/
theorem exec_kexp_inCell (hp : phase s ≠ .unreachable) (m : Bool) :
    ∃ t, exec .kexp s = .next t ∧ InCell t (phaseTable (phase s) .kexp m) := by
  refine ⟨_, exec_kexp s, ?_⟩
  rw [unlessError_of_ok _ he]
  cases hv : s.seedv with
  | false =>
    have hidle : phase s = .idle := by
      cases hk : s.keyv with
      | false => simp [phase, hv, hk]
      | true => simp [phase_ne_unreachable_iff, hv, hk] at hp
    rw [hidle]
    exact inCell_raise .noseed hidle
  | true =>
    have hne : phase s ≠ .idle := by cases hk : s.keyv <;> simp [phase, hv, hk]
    rw [phaseTable_kexp_of_ne_idle hne]
    exact inCell_loadKey he hn _ hv

/-- ENC and DEC: a valid key decides first, then the length (rules R182, R184). -/
theorem cipherCommand_inCell (f : Key → Word → Block → Block) {c : Instr} (hc : c = .enc ∨ c = .dec)
    (hp : phase s ≠ .unreachable) :
    InCell (cipherCommand f s) (phaseTable (phase s) c (malformedLength s)) := by
  have hkeyed (hk : s.keyv = true) : phase s = .keyed := by simp [phase, phase_ne_unreachable_iff.mp hp hk, hk]
  obtain ⟨herr, -⟩ | ⟨-, hk, h⟩ | ⟨-, hk, hm, h⟩ | ⟨-, hk, hm, h⟩ := cipherCommand_cases f s
  · simp [he] at herr
  · have hne : phase s ≠ .keyed := by cases hv : s.seedv <;> simp [phase, hv, hk]
    rw [h, phaseTable_cipher_of_ne_keyed hc _ hne]
    exact inCell_raise .nokey rfl
  · rw [h, hkeyed hk, phaseTable_cipher_keyed hc, if_pos hm]
    exact inCell_raise .malformed (hkeyed hk)
  · rw [h, hkeyed hk, phaseTable_cipher_keyed hc, if_neg (by simp [hm])]
    exact inCell_of_no_fault (phase_cipherPass s f) (by simp [he]) (by simp [hn])

/-- With no fault recorded, each command leads to its cell of the table. -/
theorem exec_inCell (c : Instr) (hp : phase s ≠ .unreachable) :
    ∃ t, exec c s = .next t ∧ InCell t (phaseTable (phase s) c (malformedLength s)) := by
  cases c with
  | nop => exact ⟨s, exec_nop s, inCell_of_no_fault rfl he hn⟩
  | seedx => exact ⟨_, exec_seedx s, inCell_loadSeed he hn _⟩
  | seedld => exact ⟨_, exec_seedld s, inCell_loadSeed he hn _⟩
  | kexp => exact exec_kexp_inCell he hn hp _
  | enc => exact ⟨_, rfl, cipherCommand_inCell he hn encBlock (.inl rfl) hp⟩
  | dec => exact ⟨_, rfl, cipherCommand_inCell he hn decBlock (.inr rfl) hp⟩
  | clr => exact ⟨_, exec_clr s, inCell_clear s⟩

end

/-! ### No step enters (0,1) -/

theorem applyInput_phase_ne_unreachable (i : Input) {s : State} (h : phase s ≠ .unreachable) :
    phase (applyInput i s) ≠ .unreachable := by
  cases i with
  | write off bs => rwa [applyInput, phase_hostWrite]
  | read off n => rwa [applyInput, phase_hostRead]
  | reset => simp [applyInput]

theorem exec_phase_ne_unreachable {c : Instr} {s t : State} (h : phase s ≠ .unreachable) (ht : exec c s = .next t) :
    phase t ≠ .unreachable := by
  cases exec_effect ht with
  | idle | ignored => exact h
  | faulted f => rwa [phase_raise]
  | keyed _ _ hv => simp [phase_loadKey _ hv]
  | seeded | ciphered | cleared => simp

theorem step_phase_ne_unreachable {s t : State} (h : phase s ≠ .unreachable) (ht : step s = .next t) :
    phase t ≠ .unreachable := by
  obtain ⟨-, hs⟩ | ⟨i, rest, -, -, hs⟩ | ⟨_, rest, _, _, -, -, -, hs⟩ | ⟨_, rest, _, _, -, -, -, hs⟩ := step_cases s
  · cases hs.symm.trans ht; exact h
  · cases hs.symm.trans ht
    exact applyInput_phase_ne_unreachable i (by rwa [phase_takeInput])
  · exact exec_phase_ne_unreachable (s := acceptCommand rest s) h (hs.symm.trans ht)
  · cases hs.symm.trans ht
    rwa [phase_illegalCommand, phase_acceptCommand]

/-- Settles O51: each command leads to its cell of the table, the rule on `ERR` = 1 is the machine's ERR gate, and every
kind of step keeps out of (0,1). -/
theorem phasesFollowTheTable : Obligations.PhasesFollowTheTable := by
  refine ⟨fun c s he hn hp => exec_inCell he hn c hp, fun s he => ⟨phase_illegalCommand s, ?_⟩,
    fun _ _ he hc => exec_of_err hc he, fun _ => illegalCommand_of_err,
    fun s => ⟨_, exec_clr s, phase_clear s 0, rfl⟩, fun _ _ => step_phase_ne_unreachable⟩
  rw [illegalCommand_of_ok he]
  exact ⟨rfl, rfl⟩

end Sys2Proof.Machine
